-- ==== Sys2Proof/Word.lean ====
section
/-!
DEFINITION. Words and word widths (`00_scope.md` R7, R12).

A Word is an unsigned W-bit integer: `BitVec W`, bit 0 the least significant, and
`x.getLsbD i` is `x[i]`, which is 0 for `i ≥ W` as R12 says. Where a word stands in an
instruction, in a port value or in the state, whose types do not depend on W, it is held in
a `Bus`: the widest word, with the W-bit value in its low W bits.
-/

namespace Sys2Proof

/-- The four legal word widths (R7). -/
inductive Width where
  | w8 | w16 | w32 | w64
  deriving DecidableEq, Repr

/-- The number of bits of a width (R7). -/
def Width.bits : Width → Nat
  | .w8 => 8
  | .w16 => 16
  | .w32 => 32
  | .w64 => 64

/-- A Word: an unsigned W-bit integer (R12). -/
abbrev Word (W : Nat) := BitVec W

/-- A word of at most 64 bits at rest: a W-bit value in the low W bits, the bits from W up 0
(R12: `v[i] = 0` for `i ≥ W`). DESIGN CHOICE, log entry 5. -/
abbrev Bus := BitVec 64

end Sys2Proof
end

