-- ==== Sys2Proof/Config.lean ====
section
/-!
DEFINITION. The configuration of one deinterleaver: `(W, D, LATENCY)` (`00_scope.md` R7, R8,
R10, R11; `10_state.md` R15), what a configuration is before it is checked, the
configuration errors (`60_exceptions.md` R90), and the values the spec leaves unspecified.
-/

namespace Sys2Proof

/-- A LEGAL configuration (R11): the three parameters with the proof that they are legal, as
R90 asks. LATENCY is a natural number, so it is never negative. -/
structure Config where
  /-- W (R7). -/
  width : Width
  /-- D, the dimension count (R8). -/
  dims : Nat
  /-- LATENCY, in clock cycles from acceptance to delivery (R10); OPEN in the spec (D7). -/
  latency : Nat
  /-- `1 ≤ D` (R8). -/
  dims_pos : 1 ≤ dims
  /-- `D ≤ W` (R8). -/
  dims_le : dims ≤ width.bits
  deriving DecidableEq, Repr

/-- W as a number (R7). -/
abbrev Config.W (c : Config) : Nat := c.width.bits

/-- D (R8). -/
abbrev Config.D (c : Config) : Nat := c.dims

/-- The instance behind the fixed names `exec`, `step` and `core`, which take no configuration:
W = 64, D = 3, LATENCY = 1. The spec gives no instance; DESIGN CHOICE, log entry 2. Every operation
and the family of machines take any configuration as an argument (log entry 1). -/
def instanceConfig : Config :=
  { width := .w64, dims := 3, latency := 1, dims_pos := by decide, dims_le := by decide }

/-- What an elaboration is asked for, not yet checked (R11). LATENCY is a rational, because
R90 names "not an integer" among the errors. DESIGN CHOICE, log entry 9. -/
structure RawConfig where
  W : Int
  D : Int
  latency : Rat
  deriving DecidableEq, Repr

/-- The configuration errors of R90, one constructor per row of its table. They are raised at
elaboration only: no instance exists after one, so no step ever raises one. Safe. -/
inductive ConfigError where
  /-- D is 0 (or negative): "Dimension count of 0". -/
  | dimensionCountZero
  /-- D > W: "dimension count exceeding word width". -/
  | dimensionCountExceedsWidth
  /-- W is none of 8, 16, 32, 64. -/
  | wordWidthNotSupported
  /-- LATENCY is negative or not an integer. -/
  | latencyNotNatural
  deriving DecidableEq, Repr

/-- What `out_op` shows in the cycle of the given number when `out_valid = 0`: unspecified
(`10_state.md` R24, U1). A free value: it has no body. Log entry 6. -/
opaque Config.unspecifiedOutOp : (cycle : Nat) → BitVec 1

/-- What `out_coord[lane]` shows in the cycle of the given number when `out_valid = 0`:
unspecified (`10_state.md` R24, U1). A free value: it has no body. Log entry 6. -/
opaque Config.unspecifiedOutCoord : (cycle lane : Nat) → Bus

end Sys2Proof
end

