-- ==== Sys2Proof/Syntax.lean ====
section
/-!
DEFINITION. The operations a request can name (`30_encoding.md` R43, R45, R54;
`opcode_table.json`): two, each with the one operand `code`.
-/

namespace Sys2Proof

/-- A request as syntax: one constructor per row of `spec/opcode_table.json`. The operand is
the W-bit Morton code (R46), held in a `Bus`. -/
inductive Instr where
  /-- `DECODE_ONE code`: decode coordinate 0 only (`41_deinterleave.md` R76). -/
  | decodeOne (code : Bus)
  /-- `DECODE_ALL code`: decode all D coordinates (`41_deinterleave.md` R77). -/
  | decodeAll (code : Bus)
  deriving DecidableEq, Repr

/-- The operand of a request (R54). -/
def Instr.code : Instr → Bus
  | .decodeOne code => code
  | .decodeAll code => code

/-- The `op` field that selects the operation (R45). -/
def Instr.op : Instr → BitVec 1
  | .decodeOne _ => 0#1
  | .decodeAll _ => 1#1

end Sys2Proof
end

