-- ==== Sys2Proof/WellFormed.lean ====
section
/-!
DEFINITION. Which requests an instance of word width W can be given (`30_encoding.md` R46:
the code is a W-bit Word and every one of its 2^W values is legal).
-/

namespace Sys2Proof

/-- The code is a W-bit Word: the only check there is (R46, R48). -/
def Instr.wellFormed (W : Nat) (i : Instr) : Bool :=
  decide (i.code.toNat < 2 ^ W)

end Sys2Proof
end

