-- ==== Sys2Proof/Decode.lean ====
section
/-!
DEFINITION. The request word `REQ = {in_code, in_op}` and its decoder and encoder
(`30_encoding.md` R44, R45, R47). Decoding is total: every (W+1)-bit word is a legal request
(R47, R48), so there is nothing to reject. There are no bytes on this interface (R33).
-/

namespace Sys2Proof

/-- `REQ[0]`, the operation selector (R44). -/
def reqOp (W : Nat) (req : BitVec (W + 1)) : BitVec 1 :=
  req.extractLsb' 0 1

/-- `REQ[W:1]`, the Morton code, taken as it stands (R44, R46). -/
def reqCode (W : Nat) (req : BitVec (W + 1)) : Word W :=
  req.extractLsb' 1 W

/-- The operation that an `op` field selects (R45). Both values are assigned. -/
def selectOp (op : BitVec 1) (code : Bus) : Instr :=
  if op = 0#1 then .decodeOne code else .decodeAll code

/-- Decoding of a request word: total, and by bit 0 alone (R47). -/
def decode (W : Nat) (req : BitVec (W + 1)) : Instr :=
  selectOp (reqOp W req) ((reqCode W req).setWidth 64)

/-- The request word of a request: the code above the op bit (R44). -/
def encode (W : Nat) (i : Instr) : BitVec (W + 1) :=
  (i.code.setWidth W : Word W) ++ i.op

/-- One row of the opcode table: a word matches where `REQ & mask = match` (R47). -/
structure OpcodeRow where
  mnemonic : String
  matchBits : Nat
  mask : Nat
  deriving DecidableEq, Repr

/-- The two rows of `spec/opcode_table.json`. -/
def opcodeTable : List OpcodeRow :=
  [ { mnemonic := "DECODE_ONE", matchBits := 0x0, mask := 0x1 },
    { mnemonic := "DECODE_ALL", matchBits := 0x1, mask := 0x1 } ]

/-- A request word matches a row (R47). -/
def OpcodeRow.matchesWord (r : OpcodeRow) (W : Nat) (req : BitVec (W + 1)) : Bool :=
  req &&& BitVec.ofNat (W + 1) r.mask == BitVec.ofNat (W + 1) r.matchBits

/-- The row a request belongs to, as the table names it (R45). -/
def Instr.mnemonic : Instr → String
  | .decodeOne _ => "DECODE_ONE"
  | .decodeAll _ => "DECODE_ALL"

/-- The instruction the decoder reads from an instruction whose bits are `w`, the bits from
`nbits` up being 0. The table's rows give bit 0 alone, so the width of the word is not in
them: it is read as the widest request word, W = 64 (log entry 10). -/
def decodeTableWord (nbits w : Nat) : Option Instr :=
  some (decode 64 (BitVec.ofNat 65 (w % 2 ^ nbits)))

end Sys2Proof
end

