-- ==== Sys2Proof/Machine/State.lean ====
section
/-!
DEFINITION. The state of one deinterleaver as plain data (`10_state.md` R15 to R30): the
response pipeline, which is the only state the spec gives it, what its outputs held in the cycle
just ended, and what the host has planned for its inputs. The configuration is no part of the state:
it is a parameter of every operation on it (R15; log entry 1). There are no registers, no program counter, no flags, no control registers and
no memory (R17 to R21, R31).
-/

namespace Sys2Proof.Machine

open Sys2Proof

/-- A response: `out_op` and the D lanes (`30_encoding.md` R49, `10_state.md` R25). Lane k is
entry k of `coord`, a W-bit Word held in a `Bus`. -/
structure Response where
  /-- The `op` of the request this response answers (R50). -/
  op : BitVec 1
  /-- `out_coord[0]` to `out_coord[D−1]` (R25). -/
  coord : List Bus
  deriving DecidableEq, Repr

/-- The input ports in one cycle, but for `clk`, which is the step itself (`10_state.md` R22).
Every port is 0 or 1 (`70_reset_and_hazards.md` R117); of `inCode` the low W bits are read. -/
structure InPorts where
  /-- `rst`: synchronous reset, active high. -/
  rst : Bool
  /-- `in_valid`: a request is presented in this cycle. -/
  inValid : Bool
  /-- `in_op`: the request's op field. -/
  inOp : BitVec 1
  /-- `in_code`: the Morton code. -/
  inCode : Bus
  deriving DecidableEq, Repr

/-- One instance with what stands at its ports. Its configuration is not in it (R15). -/
structure State where
  /-- `P[1..L]`, with `P[1]` first: `none` is EMPTY, `some r` is FULL(r) (R26). -/
  pipe : List (Option Response)
  /-- What the outputs held in the cycle just ended: `none` is `out_valid = 0` (R23; log entries
  3 and 6). -/
  out : Option Response
  /-- What the host drives in the cycles to come, the next one first; an IDLE cycle when used up
  (log entry 4). -/
  inputs : List InPorts
  deriving DecidableEq, Repr

/-- Why a step could stop with a fault: never. No operation faults, traps or hangs, for any
request word (`60_exceptions.md` R89), so there is no constructor. Safe. -/
inductive Fault where
  deriving DecidableEq, Repr

/-- Why a step could be refused. -/
inductive Refusal where
  /-- Raised by an arm of `exec` whose instruction has no meaning yet; no arm raises it, since
  both operations have theirs. Safe: the model stops where the hardware would go on. -/
  | notModelled (mnemonic : String)
  deriving DecidableEq, Repr

/-- An instance of configuration `c` right after a reset edge: every entry `P[i]` is EMPTY (R28,
R106), `out_valid = 0` (R29), and nothing planned by the host. -/
def State.resetOf (c : Config) : State :=
  { pipe := List.replicate c.latency none, out := none, inputs := [] }

/-- The machine right after reset: that of the instance behind the fixed names (log entry 2). -/
def State.reset : State :=
  State.resetOf instanceConfig

/-- An instance between power-up and the first reset edge: its pipeline is unspecified, so it is
an argument (R30, R112, U2; log entry 8). -/
def State.powerUp (c : Config) (pipe : List (Option Response)) : State :=
  { State.resetOf c with pipe := pipe }

end Sys2Proof.Machine
end

