-- ==== Sys2Proof/Machine/Ops.lean ====
section
/-!
DEFINITION. The shared operations: the truncating operators on Words (`00_scope.md` R13, R14),
and what one clock cycle does to the outputs and the pipeline (`70_reset_and_hazards.md` R106
to R109). Taking an exception has no operation here: there are none (`60_exceptions.md` R89,
R95, R96).
-/

namespace Sys2Proof.Machine

open Sys2Proof

/-! ## Words -/

/-- `shl(a, n) = (a * 2^n) mod 2^W`, and 0 when `n ≥ W` (R13, D9). -/
def shl {W : Nat} (a : Word W) (n : Nat) : Word W :=
  a <<< n

/-- `shr(a, n) = floor(a / 2^n)`, the logical right shift, and 0 when `n ≥ W` (R13, D9). -/
def shr {W : Nat} (a : Word W) (n : Nat) : Word W :=
  a >>> n

/-- `~a`, the bitwise complement within W bits (R13). -/
def complement {W : Nat} (a : Word W) : Word W :=
  ~~~a

/-- The Word whose bit i is `p i`, for `i < W`. -/
def ofBits (p : Nat → Bool) : (W : Nat) → Word W
  | 0 => 0#0
  | n + 1 => BitVec.cons (p n) (ofBits p n)

/-- `ceil(a / b)` over the rationals, for `b ≥ 1` (R14). -/
def ceilDiv (a b : Nat) : Nat :=
  (a + b - 1) / b

/-- The least `m' ≥ m` with `2^m' ≥ n`, looked for `fuel` places far. -/
def clog2From (n m : Nat) : (fuel : Nat) → Nat
  | 0 => m
  | fuel + 1 => if n ≤ 2 ^ m then m else clog2From n (m + 1) fuel

/-- `clog2(n)`: the least `m ≥ 0` with `2^m ≥ n`, for `n ≥ 1` (R14). -/
def clog2 (n : Nat) : Nat :=
  clog2From n 0 n

/-! ## The response pipeline -/

/-- `P[i]`, 1 ≤ i ≤ L, with `P[1]` the most recently accepted request's (R26). -/
def pipeEntry (pipe : List (Option Response)) (i : Nat) : Option Response :=
  (pipe[i - 1]?).join

/-- The pipeline after a reset edge: every entry EMPTY (R106). -/
def clearedPipe (c : Config) : List (Option Response) :=
  List.replicate c.latency none

/-- The pipeline after an edge with `rst = 0`: `P[1] ← e` and `P[i] ← P[i−1]`, all at once
(R109). With LATENCY = 0 there is no entry. -/
def advancedPipe (c : Config) (e : Option Response) (pipe : List (Option Response)) :
    List (Option Response) :=
  (e :: pipe).take c.latency

/-- What the outputs hold in a cycle in which `e` is the response of the request presented, if
one is: combinational with LATENCY = 0 (R108), the contents of `P[L]` with LATENCY = L ≥ 1
(R109), and `out_valid = 0` in either case while `rst = 1`. -/
def outputsOf (c : Config) (rst : Bool) (e : Option Response) (pipe : List (Option Response)) :
    Option Response :=
  if rst then none else if c.latency = 0 then e else pipeEntry pipe c.latency

/-- One clock cycle with the edge that ends it: the outputs are those of the cycle, and the
pipeline is updated from the values of the cycle (R105, R106, R108, R109). The configuration is a parameter (R15). -/
def clock (c : Config) (rst : Bool) (e : Option Response) (s : State) : State :=
  { s with
    out := outputsOf c rst e s.pipe
    pipe := if rst then clearedPipe c else advancedPipe c e s.pipe }

/-- A cycle that accepts a request whose response is `r` (R107). -/
def acceptCycle (c : Config) (r : Response) (s : State) : State :=
  clock c false (some r) s

/-- A cycle with `in_valid = 0` and `rst = 0`: nothing is accepted, and responses in flight
still advance (`60_exceptions.md` R103, R109). -/
def idleCycle (c : Config) (s : State) : State :=
  clock c false none s

/-- A cycle with `rst = 1`: a request presented in it is not accepted (R106, R107). -/
def resetCycle (c : Config) (s : State) : State :=
  clock c true none s

/-! ## The input ports -/

/-- The port values of an IDLE cycle (`30_encoding.md` R52): `in_valid = 0`, `rst = 0`; the op and
the code are ignored (R24). -/
def idlePorts : InPorts :=
  { rst := false, inValid := false, inOp := 0#1, inCode := 0#64 }

/-- The port values of a RESET cycle (`30_encoding.md` R52): `rst = 1`, the rest ignored. -/
def resetPorts : InPorts :=
  { rst := true, inValid := false, inOp := 0#1, inCode := 0#64 }

/-- The port values that present a request in a cycle with `rst = 0` (`30_encoding.md` R43). -/
def requestPorts (i : Instr) : InPorts :=
  { rst := false, inValid := true, inOp := i.op, inCode := i.code }

/-- What the host drives in this cycle: the next planned values, or IDLE when none is planned
(log entry 4). -/
def currentPorts (s : State) : InPorts :=
  s.inputs.headD idlePorts

/-- The state whose planned inputs begin with the next cycle's. -/
def advanceInputs (s : State) : State :=
  { s with inputs := s.inputs.tail }

/-- The port values planned for the cycle `n` cycles after this one, IDLE beyond the plan. -/
def plannedPorts (s : State) (n : Nat) : InPorts :=
  s.inputs.getD n idlePorts

/-- A request is accepted in a cycle with these port values (R107). -/
def InPorts.accepts (p : InPorts) : Bool :=
  p.inValid && !p.rst

end Sys2Proof.Machine
end

