-- ==== Sys2Proof/Machine/Constants.lean ====
section
/-!
DEFINITION. The elaboration-time constants of a configuration (`40_constants.md` R55 to R67):
the ones-mask, the step masks and their builder, the step count and the shift amounts. They are
functions of (W, D) alone, so no request, reset or port can change them (R66, `10_state.md` R15).
-/

namespace Sys2Proof.Machine

open Sys2Proof

/-- `ONES(n)`: exactly the bits 0 to n−1 set, with n = 0 and n = W as R55 singles them out; no
value for n > W (R56). -/
def ones (W n : Nat) : Option (Word W) :=
  if n = 0 then some 0#W
  else if n = W then some (complement 0#W)
  else if n < W then some (BitVec.ofNat W (2 ^ n - 1))
  else none

/-- Bit b of `MASK[s]` (R57). -/
def maskBit (D s b : Nat) : Bool :=
  decide (b % (D * 2 ^ s) < 2 ^ s)

/-- `MASK[s]`: groups of `2^s` set bits, each followed by `(D−1)·2^s` clear bits, tiled from bit 0
to bit W−1 (R57, the normative definition). -/
def stepMask (W D s : Nat) : Word W :=
  ofBits (maskBit D s) W

/-- The first `j` rounds of the builder: `m ← m | shl(p, k * width)` for k in 1..j (R58). -/
def buildRounds {W : Nat} (p : Word W) (width : Nat) : (j : Nat) → Word W
  | 0 => p
  | j + 1 => buildRounds p width j ||| shl p ((j + 1) * width)

/-- `BUILD(p, width, r)`: r copies of p, each shifted one unit further than the last, ORed; the
linear form (R58, D10). -/
def build {W : Nat} (p : Word W) (width r : Nat) : Word W :=
  buildRounds p width (r - 1)

/-- `MASK[s]` as the builder gives it (R59); no value where `ONES` has none (R56). -/
def stepMaskBuilt (W D s : Nat) : Option (Word W) :=
  (ones W (2 ^ s)).map fun p => build p (D * 2 ^ s) (ceilDiv W (D * 2 ^ s))

/-- `S = clog2(ceil(W / D)) + 1` (R62; C1 settles it against the source's literal). -/
def stepCount (W D : Nat) : Nat :=
  clog2 (ceilDiv W D) + 1

/-- The step count behind its guard: none where it would divide by zero or take the logarithm of
a width W/D < 1 (R67, `60_exceptions.md` R91). -/
def stepCountGuarded (W D : Nat) : Option Nat :=
  if D = 0 ∨ W < D then none else some (stepCount W D)

/-- `SHAMT[s] = (D − 1) * 2^(s−1)`, for s ≥ 1 (R64). -/
def shiftAmount (D s : Nat) : Nat :=
  (D - 1) * 2 ^ (s - 1)

end Sys2Proof.Machine
end

