-- ==== Sys2Proof/Machine/Operands.lean ====
section
/-!
DEFINITION. The one operand form, the W-bit `code` field taken as it stands
(`30_encoding.md` R46, R54), the lanes of a response (`10_state.md` R25), and the packed request
and response words (R44, R49).
-/

namespace Sys2Proof.Machine

open Sys2Proof

/-- What a W-bit bus carries of a held word: its low W bits, with no extension, scaling or
offset (R46). -/
def toWord (W : Nat) (v : Bus) : Word W :=
  v.setWidth W

/-- A Word held in a bus-wide container, the bits from W up 0 (R12). -/
def ofWord {W : Nat} (x : Word W) : Bus :=
  x.setWidth 64

/-- Lane k of a response, `out_coord[k]` (R25); there is no lane k for k ≥ D. -/
def Response.lane (r : Response) (k : Nat) : Option Bus :=
  r.coord[k]?

/-- The request word `REQ = {in_code, in_op}` on the ports (R44). -/
def InPorts.request (W : Nat) (p : InPorts) : BitVec (W + 1) :=
  toWord W p.inCode ++ p.inOp

/-- The lanes packed from lane 0 up, W bits each (R49). -/
def packLanes (W : Nat) : List Bus → Nat
  | [] => 0
  | v :: rest => (toWord W v).toNat + packLanes W rest * 2 ^ W

/-- The response word `RSP = {out_coord[D−1], ..., out_coord[0], out_op}`, of D·W + 1 bits (R49). -/
def Response.pack (W D : Nat) (r : Response) : BitVec (D * W + 1) :=
  BitVec.ofNat (D * W + 1) (packLanes W r.coord * 2 + r.op.toNat)

/-! ## The output ports -/

/-- `out_valid` (`10_state.md` R23). -/
def State.outValid (s : State) : Bool :=
  s.out.isSome

/-- `out_op`, as a reader sees it who numbers the cycle just ended `cycle`: free while
`out_valid = 0` (R24; log entry 6). -/
def State.outOp (s : State) (cycle : Nat) : BitVec 1 :=
  match s.out with
  | some r => r.op
  | none => Config.unspecifiedOutOp cycle

/-- `out_coord[k]`, as a reader sees it who numbers the cycle just ended `cycle`: free while
`out_valid = 0` (R24; log entry 6). There is no lane k for k ≥ D (R25). -/
def State.outCoord (c : Config) (s : State) (cycle k : Nat) : Option Bus :=
  match s.out with
  | some r => r.lane k
  | none =>
    if k < c.D then some (ofWord (toWord c.W (Config.unspecifiedOutCoord cycle k)))
    else none

end Sys2Proof.Machine
end

