-- ==== Sys2Proof/Machine/Deinterleave.lean ====
section
/-!
DEFINITION. The deinterleave engine and the meanings of the two operations
(`41_deinterleave.md` R70 to R72, R76, R77).
-/

namespace Sys2Proof.Machine

open Sys2Proof

/-- `STEP_0(x) = x & MASK[0]` (R70). -/
def stepZero (W D : Nat) (x : Word W) : Word W :=
  x &&& stepMask W D 0

/-- `STEP_s(x) = (x | shr(x, SHAMT[s])) & MASK[s]`, for s ≥ 1 (R71). -/
def stepAt (W D s : Nat) (x : Word W) : Word W :=
  (x ||| shr x (shiftAmount D s)) &&& stepMask W D s

/-- `y_s`: the value after steps 0 to s, applied in order of increasing s (R72, R73, C3). -/
def afterStep (W D : Nat) : (s : Nat) → Word W → Word W
  | 0, x => stepZero W D x
  | s + 1, x => stepAt W D (s + 1) (afterStep W D s x)

/-- `DEINT(x)`: steps 0 to S−1 (R72). -/
def deint (W D : Nat) (x : Word W) : Word W :=
  afterStep W D (stepCount W D - 1) x

/-- The lanes of `DECODE_ONE`: coordinate 0, and zeros in lanes 1 to D−1 (R76). -/
def lanesOne (W D : Nat) (code : Word W) : List (Word W) :=
  deint W D code :: List.replicate (D - 1) 0#W

/-- The lanes of `DECODE_ALL`: lane k is `DEINT(shr(code, k))` (R77, C2). -/
def lanesAll (W D : Nat) (code : Word W) : List (Word W) :=
  (List.range D).map fun k => deint W D (shr code k)

/-- The response of `DECODE_ONE code` (R76). -/
def respondOne (c : Config) (code : Bus) : Response :=
  { op := 0#1, coord := (lanesOne c.W c.D (toWord c.W code)).map ofWord }

/-- The response of `DECODE_ALL code` (R77). -/
def respondAll (c : Config) (code : Bus) : Response :=
  { op := 1#1, coord := (lanesAll c.W c.D (toWord c.W code)).map ofWord }

/-- `F(op, code)`: the response to a request (`70_reset_and_hazards.md` R104,
`30_encoding.md` R50). -/
def respond (c : Config) : Instr → Response
  | .decodeOne code => respondOne c code
  | .decodeAll code => respondAll c code

/-- What a cycle with these port values puts in flight: the response of the request presented,
if one is accepted (R107, R109). -/
def acceptedResponse (c : Config) (p : InPorts) : Option Response :=
  if p.accepts then some (respond c (selectOp p.inOp p.inCode)) else none

/-- `DECODE_ONE code` accepted in this cycle by an instance of configuration `c` (R76, R107 to
R109). It sets no flag and takes no exception (R19, R89). -/
def execDecodeOneIn (c : Config) (code : Bus) (s : State) : Host.Outcome State Fault Refusal :=
  .next (acceptCycle c (respondOne c code) s)

/-- `DECODE_ALL code` accepted in this cycle by an instance of configuration `c` (R77, R107 to
R109). It sets no flag and takes no exception (R19, R89). -/
def execDecodeAllIn (c : Config) (code : Bus) (s : State) : Host.Outcome State Fault Refusal :=
  .next (acceptCycle c (respondAll c code) s)

/-- `DECODE_ONE code` on the instance behind the fixed names (R76; log entry 2). -/
def execDecodeOne (code : Bus) (s : State) : Host.Outcome State Fault Refusal :=
  execDecodeOneIn instanceConfig code s

/-- `DECODE_ALL code` on the instance behind the fixed names (R77; log entry 2). -/
def execDecodeAll (code : Bus) (s : State) : Host.Outcome State Fault Refusal :=
  execDecodeAllIn instanceConfig code s

end Sys2Proof.Machine
end

