-- ==== Sys2Proof/Machine/Cycle.lean ====
section
/-!
DEFINITION. What one clock cycle does on given port values (`70_reset_and_hazards.md` R105 to
R109), and the port values that carry a request word (`30_encoding.md` R43, R44).
-/

namespace Sys2Proof.Machine

open Sys2Proof

/-- One clock cycle, on the port values `p`, of an instance of configuration `c` whose operations run
as `run` says. Reset has priority over a request
(`60_exceptions.md` R94); an accepted request is decoded from its request word
(`30_encoding.md` R47); with `in_valid = 0` the op and the code are ignored (`10_state.md` R24). -/
def cycleOn (c : Config) (run : Instr → State → Host.Outcome State Fault Refusal)
    (p : InPorts) (s : State) : Host.Outcome State Fault Refusal :=
  if p.rst then .next (resetCycle c s)
  else if p.inValid then run (decode c.W (p.request c.W)) s
  else .next (idleCycle c s)

/-- The port values that present a request word in a cycle with `rst = 0` (R43, R44). -/
def portsOfWord (W : Nat) (req : BitVec (W + 1)) : InPorts :=
  { rst := false, inValid := true, inOp := reqOp W req, inCode := (reqCode W req).setWidth 64 }

end Sys2Proof.Machine
end

