-- ==== Sys2Proof/Machine/Dispatch.lean ====
section
/-!
DEFINITION. One arm per operation: the meaning it has (`41_deinterleave.md` R76, R77, R88), on
the instance behind the fixed names (log entry 2).
-/

namespace Sys2Proof.Machine

open Sys2Proof

def exec (i : Instr) (s : State) : Host.Outcome State Fault Refusal :=
  match i with
  | .decodeOne code => Sys2Proof.Machine.execDecodeOne code s
  | .decodeAll code => Sys2Proof.Machine.execDecodeAll code s

end Sys2Proof.Machine
end

