-- ==== Sys2Proof/Machine/Step.lean ====
section
/-!
DEFINITION. One step is one clock cycle (`70_reset_and_hazards.md` R105). The machine fetches
nothing: each request arrives whole on the input ports (`10_state.md` R18).
-/

namespace Sys2Proof.Machine

open Sys2Proof

/-- One clock cycle, on the port values planned for it, of the instance behind the fixed names (log
entry 2). -/
def step (s : State) : Host.Outcome State Fault Refusal :=
  cycleOn instanceConfig exec (currentPorts s) (advanceInputs s)

/-- `s` with the request word of bits `w`, those from `nbits` up being 0, presented in the very
next cycle in the place of what was planned for it (log entries 4 and 10). -/
def State.withFetchWord (s : State) (nbits w : Nat) : State :=
  { s with
    inputs := portsOfWord instanceConfig.W (BitVec.ofNat (instanceConfig.W + 1) (w % 2 ^ nbits)) ::
      s.inputs.tail }

end Sys2Proof.Machine
end

