-- ==== Sys2Proof/Machine/Elaborate.lean ====
section
/-!
DEFINITION. Elaboration: the check that makes a configuration legal or refuses it before any
instance exists (`00_scope.md` R11, `60_exceptions.md` R90, R91).
-/

namespace Sys2Proof.Machine

open Sys2Proof

/-- The supported word width of that many bits, if there is one (R7). -/
def widthOfBits (w : Int) : Option Width :=
  if w = 8 then some .w8
  else if w = 16 then some .w16
  else if w = 32 then some .w32
  else if w = 64 then some .w64
  else none

/-- Elaborates a configuration, or refuses it with the condition of R90 that it fails. Where it
fails several the spec ranks none above another: the error reported is log entry 9. -/
def elaborate (r : RawConfig) : Except ConfigError Config :=
  match widthOfBits r.W with
  | none => .error .wordWidthNotSupported
  | some w =>
    if hpos : 1 ≤ r.D.toNat then
      if hle : r.D.toNat ≤ w.bits then
        if r.latency.den = 1 ∧ 0 ≤ r.latency.num then
          .ok { width := w, dims := r.D.toNat, latency := r.latency.num.toNat,
                dims_pos := hpos, dims_le := hle }
        else .error .latencyNotNatural
      else .error .dimensionCountExceedsWidth
    else .error .dimensionCountZero

end Sys2Proof.Machine
end

