-- ==== Sys2Proof/Machine/Family.lean ====
section
/-!
DEFINITION. The machine of every legal configuration: `exec`, `step` and the machine as families
indexed by (W, D, LATENCY), which are parameters of the step relation and not fields of the state
(`10_state.md` R15; `00_scope.md` R11). The fixed names are these at `instanceConfig` (log entries
1 and 2).
-/

namespace Sys2Proof.Machine

open Sys2Proof

/-- The meaning of an operation for an instance of configuration `c` (R76, R77). -/
def execIn (c : Config) (i : Instr) (s : State) : Host.Outcome State Fault Refusal :=
  match i with
  | .decodeOne code => execDecodeOneIn c code s
  | .decodeAll code => execDecodeAllIn c code s

/-- One step of an instance of configuration `c`: a clock cycle on the port values planned for it
(`70_reset_and_hazards.md` R105). -/
def stepIn (c : Config) (s : State) : Host.Outcome State Fault Refusal :=
  cycleOn c (execIn c) (currentPorts s) (advanceInputs s)

/-- The machine of configuration `c`, in the form of the host's interface. -/
def coreIn (c : Config) : Host.Core :=
  { State := State
    Fault := Fault
    Refusal := Refusal
    step := stepIn c
    reset := State.resetOf c }

end Sys2Proof.Machine
end

