-- ==== Sys2Proof/Machine/Reference.lean ====
section
/-!
DEFINITION. What the spec's laws compare the engine with: the width of a coordinate
(`41_deinterleave.md` R79), the closed forms (R74, R80), the working-copy loop (R78), the
test-only interleave (R85; `00_scope.md` R5: no operation of the hardware) and the source's own
step counts (`40_constants.md` R63, C8). No step of the machine uses any of them.
-/

namespace Sys2Proof.Machine

open Sys2Proof

/-- `L_k`: how many bits of coordinate k a W-bit code holds (R79). -/
def coordWidth (W D k : Nat) : Nat :=
  ceilDiv (W - k) D

/-- Coordinate k of a code by the data layout alone: bit i of it is code bit i·D + k (R80). -/
def coordinate (W D k : Nat) (code : Word W) : Word W :=
  ofBits (fun i => code.getLsbD (i * D + k)) W

/-- `DEINT` as the sum of R74, over the integers. -/
def deintSum (W D : Nat) (x : Word W) : Nat :=
  (((List.range W).filter fun i => i * D < W).map fun i => (x.getLsbD (i * D)).toNat * 2 ^ i).sum

/-- The working-copy loop: `n` more lanes from the working value `w`, shifting it right by one bit
after each (R78, with the index running upward as C2 settles it). -/
def workingCopyLanes (W D : Nat) (w : Word W) : (n : Nat) → List (Word W)
  | 0 => []
  | n + 1 => deint W D w :: workingCopyLanes W D (shr w 1) n

/-- Bit i of coordinate k of a tuple. -/
def tupleBit (cs : List Bus) (k i : Nat) : Bool :=
  (cs.getD k 0#64).getLsbD i

/-- The places (k, i) of a tuple that have a place in the code: `i·D + k < W` (R85). -/
def codePlaces (W D : Nat) : List (Nat × Nat) :=
  ((List.range D).flatMap fun k => (List.range W).map fun i => (k, i)).filter
    fun ki => ki.2 * D + ki.1 < W

/-- `INTERLEAVE(c_0, ..., c_{D−1})`: the OR over k, i with i·D + k < W of `shl(c_k[i], i·D + k)`
(R85). -/
def interleave (W D : Nat) (cs : List Bus) : Word W :=
  (codePlaces W D).foldl
    (fun acc ki => acc ||| shl (BitVec.ofNat W (tupleBit cs ki.1 ki.2).toNat) (ki.2 * D + ki.1)) 0#W

/-- The source's literal step count, `floor(log2(floor(W/D))) + 1`, which this machine does not
use (R63, C1). -/
def literalStepCount (W D : Nat) : Nat :=
  Nat.log2 (W / D) + 1

/-- The step count of the original code, `floor(log2(W/2)) + 1` for every D, which this machine
does not use (`41_deinterleave.md` R75, C8). -/
def originalStepCount (W : Nat) : Nat :=
  Nat.log2 (W / 2) + 1

/-- D is a power of two. -/
def IsPowerOfTwo (D : Nat) : Prop :=
  ∃ d, D = 2 ^ d

end Sys2Proof.Machine
end

