-- ==== Sys2Proof/Machine/System.lean ====
section
/-!
DEFINITION. Several instances side by side (`60_exceptions.md` R101): each is an agent of its own
with its own configuration, and no step of one reads or writes anything of another (log entry 12).
-/

namespace Sys2Proof.Machine

open Sys2Proof

/-- The states of any number of instances (R101). They have no identifiers beyond their place in the
list. -/
structure System where
  members : List State
  deriving DecidableEq, Repr

/-- One clock cycle of the instance at place `n`, whose configuration is entry `n` of `cfgs`: its own
step on its own state. Nothing where there is no such instance. The configurations are parameters of
the step here too (`10_state.md` R15). -/
def System.stepAt (cfgs : List Config) (y : System) (n : Nat) :
    Host.Outcome System Fault Refusal :=
  match cfgs[n]?, y.members[n]? with
  | some c, some s =>
    match stepIn c s with
    | .next t => .next { members := y.members.set n t }
    | .fault r => .fault r
    | .refused r => .refused r
  | some _, none => .next y
  | none, _ => .next y

end Sys2Proof.Machine
end

