-- ==== Sys2Proof/Safety.lean ====
section
/-!
DEFINITION. The terms statements use: which states an instance can be in, and what an instance
delivers over several cycles (`70_reset_and_hazards.md` R104, R110). There is no unsafe state to
reach: no operation faults (`60_exceptions.md` R89).
-/

namespace Sys2Proof.Machine

open Sys2Proof

/-- A response that fits the ports of a configuration: D lanes of W bits each (`10_state.md`
R25). -/
abbrev Response.FitsPorts (c : Config) (r : Response) : Prop :=
  r.coord.length = c.D ∧ ∀ v ∈ r.coord, v.toNat < 2 ^ c.W

/-- The pipeline of an instance of configuration `c` has exactly L entries and everything held fits
the ports (`10_state.md` R26). Every state the spec names is of this form, power-up states too. -/
abbrev State.WellFormed (c : Config) (s : State) : Prop :=
  s.pipe.length = c.latency ∧
  (∀ e ∈ s.pipe, ∀ r ∈ e, r.FitsPorts c) ∧
  (∀ r ∈ s.out, r.FitsPorts c)

/-- A response that some request to this configuration has (R104): the `F(op, code)` of it. -/
def Response.Genuine (c : Config) (r : Response) : Prop :=
  ∃ i : Instr, i.wellFormed c.W = true ∧ r = respond c i

/-- Everything in flight or on the outputs answers a request. It fails only in power-up states,
which may hold responses that no request asked for (`70_reset_and_hazards.md` R112). -/
def State.AllGenuine (c : Config) (s : State) : Prop :=
  s.pipe.length = c.latency ∧
  (∀ e ∈ s.pipe, ∀ r ∈ e, r.Genuine c) ∧
  (∀ r ∈ s.out, r.Genuine c)

/-- The responses that an instance of configuration `c` delivers in the next `n` cycles, in the order
they come out (R104). -/
def State.delivered (c : Config) : (n : Nat) → State → List Response
  | 0, _ => []
  | n + 1, s =>
    match stepIn c s with
    | .next t => t.out.toList ++ State.delivered c n t
    | .fault _ => []
    | .refused _ => []

/-- `rst = 0` in each of the cycles `n` to `m`, both included, as the host plans them. -/
def State.NoResetFrom (s : State) (n m : Nat) : Prop :=
  ∀ k, n ≤ k → k ≤ m → (plannedPorts s k).rst = false

end Sys2Proof.Machine
end

