-- ==== Sys2Proof/Certificates/Slice0/Obligations.lean ====
section
/-!
DEFINITION. The statements for the provers, from the numbered rules of the spec. Each docstring
names the rule or the section it formalises; where a statement rests on a choice of the model it
says so and names the log entry.
-/

open Sys2Proof Sys2Proof.Machine

/-! ## Configuration -/

/-- R11: the legal configurations are exactly those that elaboration accepts, and an accepted
one has the parameters asked for. -/
def Obligations.ElaborationAcceptsExactlyTheLegal : Prop :=
  ∀ r : RawConfig,
    ((∃ c, elaborate r = .ok c) ↔
      (r.W = 8 ∨ r.W = 16 ∨ r.W = 32 ∨ r.W = 64) ∧ 1 ≤ r.D ∧ r.D ≤ r.W ∧
        ∃ n : Nat, r.latency = (n : Rat)) ∧
    ∀ c, elaborate r = .ok c →
      (c.W : Int) = r.W ∧ (c.D : Int) = r.D ∧ (c.latency : Rat) = r.latency

/-- R90: each row of the table of configuration errors is refused, so no instance exists. -/
def Obligations.ConfigurationErrorsAreRefused : Prop :=
  ∀ r : RawConfig,
    (r.D = 0 ∨ r.W < r.D ∨ ¬ (r.W = 8 ∨ r.W = 16 ∨ r.W = 32 ∨ r.W = 64) ∨
      r.latency < 0 ∨ ¬ ∃ n : Int, r.latency = (n : Rat)) →
    ∃ e, elaborate r = .error e

/-- `40_constants.md` section 5, `60_exceptions.md` section 1: the step count has a guard that
rejects a zero width, and for a legal configuration the guard never fires. -/
def Obligations.StepCountGuardRejectsZeroWidth : Prop :=
  (∀ W D, stepCountGuarded W D = none ↔ D = 0 ∨ W < D) ∧
  ∀ c : Config, stepCountGuarded c.W c.D = some (stepCount c.W c.D) ∧
    1 ≤ ceilDiv c.W c.D ∧ ceilDiv c.W c.D ≤ c.W

/-! ## Words and constants -/

/-- R13: the operators on Words. -/
def Obligations.WordOperators : Prop :=
  ∀ (W n : Nat) (a b : Word W),
    (shl a n).toNat = a.toNat * 2 ^ n % 2 ^ W ∧ (W ≤ n → shl a n = 0#W) ∧
    (shr a n).toNat = a.toNat / 2 ^ n ∧ (W ≤ n → shr a n = 0#W) ∧
    ∀ i, (a ||| b).getLsbD i = (a.getLsbD i || b.getLsbD i) ∧
      (a &&& b).getLsbD i = (a.getLsbD i && b.getLsbD i) ∧
      (complement a).getLsbD i = (decide (i < W) && !a.getLsbD i)

/-- R55: `ONES(n)` has exactly the bits 0 to n−1 set, for every 0 ≤ n ≤ W; and it has no value
beyond W. -/
def Obligations.OnesMaskSetsTheLowBits : Prop :=
  (∀ W n, n ≤ W → ∃ v, ones W n = some v ∧ ∀ i, v.getLsbD i = decide (i < n)) ∧
  (∀ W n, W < n → ones W n = none) ∧
  (∀ W, ones W 0 = some 0#W ∧ ones W W = some (BitVec.ofNat W (2 ^ W - 1))) ∧
  ones 8 0 = some 0x00 ∧ ones 8 3 = some 0x07 ∧ ones 8 8 = some 0xFF

/-- R57: the bits of `MASK[s]`. -/
def Obligations.StepMaskBits : Prop :=
  (∀ W D s b, (stepMask W D s).getLsbD b =
    (decide (b < W) && decide (b % (D * 2 ^ s) < 2 ^ s))) ∧
  stepMask 8 3 0 = 0x49 ∧ stepMask 8 3 1 = 0xC3 ∧ stepMask 8 3 2 = 0x0F

/-- `40_constants.md` section 2: `BUILD(p, width, r)` ORs exactly r copies of p, copy j shifted by
j·width, and drops what falls at or above W. -/
def Obligations.BuilderOrsShiftedCopies : Prop :=
  ∀ (W : Nat) (p : Word W) (width r : Nat), 1 ≤ width → 1 ≤ r → ∀ b,
    ((build p width r).getLsbD b = true ↔
      b < W ∧ ∃ j, j < r ∧ j * width ≤ b ∧ p.getLsbD (b - j * width) = true)

/-- R59: the builder gives the step masks, and `ONES(2^s)` is in its domain for s ≤ S−1. -/
def Obligations.BuilderGivesTheStepMasks : Prop :=
  (∀ (c : Config) (s : Nat), s ≤ stepCount c.W c.D - 1 →
    2 ^ s ≤ c.W ∧ stepMaskBuilt c.W c.D s = some (stepMask c.W c.D s)) ∧
  build (0x03 : Word 8) 4 2 = 0x33

/-- R60: the properties (a) to (e) of the step masks. (d) is stated for every step up to S−1, since
at s = S−1 itself a second group never lies below W. In (e) coordinate bit i sits, after step s, at
position `(i / 2^s)·D·2^s + i mod 2^s`. -/
def Obligations.StepMaskProperties : Prop :=
  (∀ c : Config,
    let S := stepCount c.W c.D
    (∀ b, (stepMask c.W c.D 0).getLsbD b = (decide (b < c.W) && decide (b % c.D = 0))) ∧
    (c.D = 1 → ∀ s, ones c.W c.W = some (stepMask c.W c.D s)) ∧
    (c.D = 2 →
      (∀ b, (stepMask c.W c.D 0).getLsbD b = (decide (b < c.W) && decide (b % 2 = 0))) ∧
      ones c.W (c.W / 2) = some (stepMask c.W c.D (S - 1))) ∧
    (∀ s, s ≤ S - 1 →
      (∀ b, b < 2 ^ s → (stepMask c.W c.D s).getLsbD b = true) ∧
      (∀ b, 2 ^ s ≤ b → b < c.D * 2 ^ s → (stepMask c.W c.D s).getLsbD b = false) ∧
      (c.D * 2 ^ s < c.W → (stepMask c.W c.D s).getLsbD (c.D * 2 ^ s) = true)) ∧
    (∀ s, s ≤ S - 1 →
      ceilDiv c.W c.D ≤
        ((List.range c.W).filter fun b => (stepMask c.W c.D s).getLsbD b).length ∧
      (∀ i j, i / 2 ^ s * (c.D * 2 ^ s) + i % 2 ^ s = j / 2 ^ s * (c.D * 2 ^ s) + j % 2 ^ s →
        i = j) ∧
      ∀ i, i < ceilDiv c.W c.D →
        (stepMask c.W c.D s).getLsbD (i / 2 ^ s * (c.D * 2 ^ s) + i % 2 ^ s) = true ∧
        ∀ x : Word c.W, (afterStep c.W c.D s x).getLsbD
          (i / 2 ^ s * (c.D * 2 ^ s) + i % 2 ^ s) = x.getLsbD (i * c.D))) ∧
  stepMask 32 4 (stepCount 32 4 - 1) = 0x000000FF ∧
  stepMask 32 3 (stepCount 32 3 - 1) = 0x0000FFFF ∧
  stepMask 32 5 (stepCount 32 5 - 1) = 0x000000FF

/-- `40_constants.md` section 3: S is the least step count whose last groups, of 2^(S−1) bits, hold
the ceil(W/D) bits of coordinate 0 (DEDUCED reading of the rule for D = 1, log entry 15), with the
section's examples. -/
def Obligations.StepCountIsLeastSufficient : Prop :=
  (∀ c : Config, 1 ≤ stepCount c.W c.D ∧
    ceilDiv c.W c.D ≤ 2 ^ (stepCount c.W c.D - 1) ∧
    ∀ S', 1 ≤ S' → ceilDiv c.W c.D ≤ 2 ^ (S' - 1) → stepCount c.W c.D ≤ S') ∧
  stepCount 8 2 = 3 ∧ stepCount 32 3 = 5 ∧ literalStepCount 32 3 = 4 ∧ stepCount 64 1 = 7

/-- `40_constants.md` section 3: the source's literal agrees with S for a power-of-two D and is one
less for every other D. -/
def Obligations.StepCountAgainstTheLiteral : Prop :=
  ∀ c : Config,
    (∀ d, c.D = 2 ^ d →
      stepCount c.W c.D = literalStepCount c.W c.D ∧
      stepCount c.W c.D + d = Nat.log2 c.W + 1) ∧
    (¬ IsPowerOfTwo c.D → literalStepCount c.W c.D + 1 = stepCount c.W c.D)

/-- R64: the shift amounts, 0 for D = 1, and the example. -/
def Obligations.ShiftAmountFormula : Prop :=
  (∀ D s, 1 ≤ s → shiftAmount D s = (D - 1) * 2 ^ (s - 1)) ∧
  (∀ s, shiftAmount 1 s = 0) ∧
  (List.range 4).map (fun s => shiftAmount 3 (s + 1)) = [2, 4, 8, 16] ∧ stepCount 32 3 - 1 = 4

/-- R65: no shift of a legal instance reaches W, by the chain of the rule. -/
def Obligations.ShiftAmountsStayBelowWidth : Prop :=
  ∀ (c : Config) (s : Nat), 1 ≤ s → s ≤ stepCount c.W c.D - 1 →
    2 ^ (stepCount c.W c.D - 2) < ceilDiv c.W c.D ∧
    (c.D - 1) * 2 ^ (stepCount c.W c.D - 2) < c.W ∧ shiftAmount c.D s < c.W

/-! ## The deinterleave engine -/

/-- R73: what stands at every bit position after every step. With `p = j·D·2^s + t` the offset t is
below 2^s exactly where `MASK[s]` is set; `c[i] = x[i·D]`, which is 0 for i·D ≥ W. -/
def Obligations.StepInvariant : Prop :=
  ∀ (W D s : Nat) (x : Word W), 1 ≤ D → ∀ p, p < W →
    let j := p / (D * 2 ^ s)
    let t := p % (D * 2 ^ s)
    (t < 2 ^ s → (stepMask W D s).getLsbD p = true ∧
      (afterStep W D s x).getLsbD p = x.getLsbD ((j * 2 ^ s + t) * D)) ∧
    (2 ^ s ≤ t → (stepMask W D s).getLsbD p = false ∧
      (afterStep W D s x).getLsbD p = false)

/-- R74: the closed form of DEINT, as a sum and bit by bit, and its bound. -/
def Obligations.DeintClosedForm : Prop :=
  ∀ (c : Config) (x : Word c.W),
    (deint c.W c.D x).toNat = deintSum c.W c.D x ∧
    (∀ i, i * c.D < c.W → (deint c.W c.D x).getLsbD i = x.getLsbD (i * c.D)) ∧
    (∀ i, c.W ≤ i * c.D → (deint c.W c.D x).getLsbD i = false) ∧
    (deint c.W c.D x).toNat < 2 ^ ceilDiv c.W c.D

/-- R75: extra steps do not change the result, missing steps do; with what follows of the original
code's step count and of the literal. -/
def Obligations.ExtraStepsHarmlessMissingStepsWrong : Prop :=
  ∀ c : Config,
    (∀ S' (x : Word c.W), stepCount c.W c.D ≤ S' →
      afterStep c.W c.D (S' - 1) x = deint c.W c.D x) ∧
    (c.D = 1 → ∀ S' (x : Word c.W), 1 ≤ S' →
      afterStep c.W c.D (S' - 1) x = x ∧ deint c.W c.D x = x) ∧
    (2 ≤ c.D → ∀ S', 1 ≤ S' → S' < stepCount c.W c.D →
      let x : Word c.W := shl 1#c.W (c.D * 2 ^ (S' - 1))
      2 ^ (S' - 1) < ceilDiv c.W c.D ∧
      afterStep c.W c.D (S' - 1) x ≠ deint c.W c.D x ∧
      (afterStep c.W c.D (S' - 1) x).getLsbD (c.D * 2 ^ (S' - 1)) = true ∧
      (afterStep c.W c.D (S' - 1) x).getLsbD (2 ^ (S' - 1)) = false ∧
      (deint c.W c.D x).getLsbD (2 ^ (S' - 1)) = true) ∧
    (2 ≤ c.D → stepCount c.W c.D ≤ originalStepCount c.W) ∧
    (∀ x : Word c.W, afterStep c.W c.D (originalStepCount c.W - 1) x = deint c.W c.D x) ∧
    (¬ IsPowerOfTwo c.D → ∃ x : Word c.W,
      afterStep c.W c.D (literalStepCount c.W c.D - 1) x ≠ deint c.W c.D x)

/-! ## The operations -/

/-- `41_deinterleave.md` section 2, `30_encoding.md` section 1, `70_reset_and_hazards.md` section 2:
`DECODE_ONE` runs in every state of every configuration, with its response, its encoding, its corner
cases and its example; and its frame: the response enters the pipeline or, with LATENCY = 0, stands
on the outputs, the entries in flight move on by one, and the planned inputs stand as they were
(that they are a field at all is DESIGN CHOICE, log entry 4; so is the instance behind the fixed
`exec`, log entry 2). No request word decodes to a code wider than W (log entry 14). -/
def Obligations.DecodeOneRuns : Prop :=
  (∀ (c : Config) (s : State) (code : Bus), (Instr.decodeOne code).wellFormed c.W = true →
    let x := toWord c.W code
    let q := encode c.W (.decodeOne code)
    ∃ t r, execIn c (.decodeOne code) s = .next t ∧
      (c = instanceConfig → exec (.decodeOne code) s = .next t) ∧
      r.op = 0#1 ∧ r.coord.length = c.D ∧
      r.lane 0 = some (ofWord (deint c.W c.D x)) ∧
      (∀ k, 1 ≤ k → k < c.D → r.lane k = some 0#64) ∧
      q.getLsbD 0 = false ∧ (∀ i, i < c.W → q.getLsbD (i + 1) = code.getLsbD i) ∧
      (code = 0#64 → r.lane 0 = some 0#64) ∧
      (ones c.W c.W = some x →
        ∃ v, ones c.W (ceilDiv c.W c.D) = some v ∧ r.lane 0 = some (ofWord v)) ∧
      (c.D = 1 → r.lane 0 = some code) ∧
      (c.D = c.W → r.lane 0 = some (code &&& 1#64)) ∧
      ((∀ b, code.getLsbD b = true → b % c.D ≠ 0) → r.lane 0 = some 0#64) ∧
      ((c.W - 1) % c.D ≠ 0 →
        deint c.W c.D (x ^^^ shl 1#c.W (c.W - 1)) = deint c.W c.D x) ∧
      (c.latency = 0 → t.out = some r ∧ t.pipe = []) ∧
      (1 ≤ c.latency → t.out = pipeEntry s.pipe c.latency ∧ pipeEntry t.pipe 1 = some r ∧
        ∀ i, 2 ≤ i → i ≤ c.latency → pipeEntry t.pipe i = pipeEntry s.pipe (i - 1)) ∧
      t.inputs = s.inputs) ∧
  (∀ c : Config, c.W = 8 → c.D = 2 →
    encode 8 (.decodeOne 0xB6) = 0x16C ∧
    (respond c (.decodeOne 0xB6)).pack 8 2 = 0x00C ∧
    (respond c (.decodeOne 0xB6)).coord = [0x06, 0x00])

/-- `41_deinterleave.md` section 2, `30_encoding.md` section 1, `70_reset_and_hazards.md` section 2:
`DECODE_ALL` runs in every state of every configuration, with its response, its encoding, its corner
cases and its example; and its frame: the response enters the pipeline or, with LATENCY = 0, stands
on the outputs, the entries in flight move on by one, and the planned inputs stand as they were
(that they are a field at all is DESIGN CHOICE, log entry 4; so is the instance behind the fixed
`exec`, log entry 2). No request word decodes to a code wider than W (log entry 14). -/
def Obligations.DecodeAllRuns : Prop :=
  (∀ (c : Config) (s : State) (code : Bus), (Instr.decodeAll code).wellFormed c.W = true →
    let x := toWord c.W code
    let q := encode c.W (.decodeAll code)
    ∃ t r, execIn c (.decodeAll code) s = .next t ∧
      (c = instanceConfig → exec (.decodeAll code) s = .next t) ∧
      r.op = 1#1 ∧ r.coord.length = c.D ∧
      (∀ k, k < c.D → k < c.W ∧ r.lane k = some (ofWord (deint c.W c.D (shr x k)))) ∧
      q.getLsbD 0 = true ∧ (∀ i, i < c.W → q.getLsbD (i + 1) = code.getLsbD i) ∧
      (code = 0#64 → ∀ k, k < c.D → r.lane k = some 0#64) ∧
      (ones c.W c.W = some x → ∀ k, k < c.D →
        ∃ v, ones c.W (coordWidth c.W c.D k) = some v ∧ r.lane k = some (ofWord v)) ∧
      (c.D = 1 → r.lane 0 = some code) ∧
      (c.D = c.W → ∀ k, k < c.D → r.lane k = some ((code >>> k) &&& 1#64)) ∧
      (∀ k v, r.lane k = some v → v.toNat ≤ 2 ^ coordWidth c.W c.D k - 1) ∧
      (c.latency = 0 → t.out = some r ∧ t.pipe = []) ∧
      (1 ≤ c.latency → t.out = pipeEntry s.pipe c.latency ∧ pipeEntry t.pipe 1 = some r ∧
        ∀ i, 2 ≤ i → i ≤ c.latency → pipeEntry t.pipe i = pipeEntry s.pipe (i - 1)) ∧
      t.inputs = s.inputs) ∧
  (∀ c : Config, c.W = 8 → c.D = 2 →
    encode 8 (.decodeAll 0xB6) = 0x16D ∧
    (respond c (.decodeAll 0xB6)).pack 8 2 = 0x1A0D ∧
    (respond c (.decodeAll 0xB6)).coord = [0x06, 0x0D])

/-- R78: the working-copy loop gives the lanes of R77, and lane 0 of
`DECODE_ONE(shr(code, k))` is lane k of `DECODE_ALL(code)`. -/
def Obligations.WorkingCopyLoopGivesTheSameLanes : Prop :=
  ∀ (c : Config) (code : Bus), code.toNat < 2 ^ c.W →
    let x := toWord c.W code
    workingCopyLanes c.W c.D x c.D = lanesAll c.W c.D x ∧
    (∀ k, shr (shr x k) 1 = shr x (k + 1)) ∧
    ∀ k, k < c.D →
      (respond c (.decodeOne (ofWord (shr x k)))).lane 0 = (respond c (.decodeAll code)).lane k

/-- R79: the width of coordinate k, its places in the code, and the bound of its lane. -/
def Obligations.CoordinateWidths : Prop :=
  (∀ (c : Config) (k : Nat), k < c.D →
    let L := coordWidth c.W c.D k
    L = c.W / c.D + (if k < c.W % c.D then 1 else 0) ∧
    (∀ i, i * c.D + k < c.W ↔ i < L) ∧
    (c.W % c.D = 0 → L = c.W / c.D) ∧
    ∀ (code v : Bus), (respond c (.decodeAll code)).lane k = some v →
      v.toNat < 2 ^ L ∧ ∀ i, L ≤ i → v.getLsbD i = false) ∧
  (List.range 3).map (coordWidth 32 3) = [11, 11, 10]

/-- R80: the closed form of `DECODE_ALL`; it equals the lanes of R77. -/
def Obligations.DecodeAllClosedForm : Prop :=
  ∀ (c : Config) (code : Bus), code.toNat < 2 ^ c.W → ∀ k, k < c.D →
    deint c.W c.D (shr (toWord c.W code) k) = coordinate c.W c.D k (toWord c.W code) ∧
    ∃ v, (respond c (.decodeAll code)).lane k = some v ∧
      ∀ i, (i * c.D + k < c.W → v.getLsbD i = code.getLsbD (i * c.D + k)) ∧
        (c.W ≤ i * c.D + k → v.getLsbD i = false)

/-- R81: the two operations agree on lane 0. -/
def Obligations.BothOperationsAgreeOnLaneZero : Prop :=
  ∀ (c : Config) (code : Bus),
    ∃ v, (respond c (.decodeOne code)).lane 0 = some v ∧
      (respond c (.decodeAll code)).lane 0 = some v

/-- R82: with D = 1 decoding is the identity. -/
def Obligations.OneDimensionIsTheIdentity : Prop :=
  ∀ c : Config, c.D = 1 →
    stepCount c.W c.D = Nat.log2 c.W + 1 ∧
    (∀ s, ones c.W c.W = some (stepMask c.W c.D s)) ∧ (∀ s, shiftAmount c.D s = 0) ∧
    (∀ x : Word c.W, deint c.W c.D x = x) ∧
    ∀ code : Bus, code.toNat < 2 ^ c.W → (respond c (.decodeAll code)).coord = [code]

/-- R83: the code 0 gives every lane 0. -/
def Obligations.ZeroCodeGivesZeroLanes : Prop :=
  ∀ c : Config, (respond c (.decodeAll 0#64)).coord = List.replicate c.D 0#64 ∧
    (respond c (.decodeOne 0#64)).coord = List.replicate c.D 0#64

/-- R84: the all-ones code gives `ONES(L_k)` in lane k, whether or not D divides W. -/
def Obligations.AllOnesCodeGivesOnesLanes : Prop :=
  (∀ (c : Config) (code : Bus), ones c.W c.W = some (toWord c.W code) → ∀ k, k < c.D →
    ∃ n v, ones c.W n = some v ∧ (respond c (.decodeAll code)).lane k = some (ofWord v) ∧
      n = coordWidth c.W c.D k ∧ (c.W % c.D = 0 → n = c.W / c.D) ∧
      (c.W % c.D ≠ 0 → n = if k < c.W % c.D then c.W / c.D + 1 else c.W / c.D)) ∧
  ∀ c : Config, c.W = 8 → c.D = 3 →
    (respond c (.decodeAll 0xFF)).coord = [0x07, 0x07, 0x03]

/-- R85: `DECODE_ALL` and the test-only interleave are inverse to each other on the W-bit codes and
the tuples with `c_k < 2^L_k`, so `DECODE_ALL` is a bijection between them; bits of `c_k` at
positions L_k and above are lost. -/
def Obligations.RoundTrip : Prop :=
  ∀ c : Config,
    let lanes := fun code : Bus => (respond c (.decodeAll code)).coord
    let Fits := fun cs : List Bus => cs.length = c.D ∧
      ∀ k v, cs[k]? = some v → v.toNat < 2 ^ coordWidth c.W c.D k
    (∀ cs, Fits cs → lanes (ofWord (interleave c.W c.D cs)) = cs) ∧
    (∀ code : Bus, code.toNat < 2 ^ c.W →
      interleave c.W c.D (lanes code) = toWord c.W code ∧ Fits (lanes code)) ∧
    (∀ a b : Bus, a.toNat < 2 ^ c.W → b.toNat < 2 ^ c.W → lanes a = lanes b → a = b) ∧
    (∀ cs, Fits cs → ∃ code : Bus, code.toNat < 2 ^ c.W ∧ lanes code = cs) ∧
    ∀ cs ds : List Bus,
      (∀ k i, k < c.D → i < coordWidth c.W c.D k → tupleBit cs k i = tupleBit ds k i) →
      interleave c.W c.D cs = interleave c.W c.D ds

/-! ## Encoding -/

/-- R44: the request word on the ports, its fields and its number. -/
def Obligations.RequestWordLayout : Prop :=
  ∀ (W : Nat) (p : InPorts),
    (p.request W).toNat = (toWord W p.inCode).toNat * 2 + p.inOp.toNat ∧
    reqOp W (p.request W) = p.inOp ∧ reqCode W (p.request W) = toWord W p.inCode

/-- R47: decoding is total and by bit 0 alone: exactly one of the two rows matches a request word,
and the decoder gives that row's operation with `REQ[W:1]` as its code. -/
def Obligations.DecodingIsByBitZero : Prop :=
  ∀ (c : Config) (req : BitVec (c.W + 1)),
    (opcodeTable.filter fun row => row.matchesWord c.W req).map OpcodeRow.mnemonic =
      [(decode c.W req).mnemonic] ∧
    (req.getLsbD 0 = false → decode c.W req = .decodeOne (ofWord (reqCode c.W req))) ∧
    (req.getLsbD 0 = true → decode c.W req = .decodeAll (ofWord (reqCode c.W req)))

/-- R48: every one of the 2^(W+1) request words is a legal request for one of the two operations,
and no two of them stand for the same request. -/
def Obligations.EveryRequestWordIsLegal : Prop :=
  ∀ c : Config,
    (∀ req : BitVec (c.W + 1), (decode c.W req).wellFormed c.W = true ∧
      encode c.W (decode c.W req) = req) ∧
    ∀ req req' : BitVec (c.W + 1), decode c.W req = decode c.W req' → req = req'

/-- `30_encoding.md` section 1: decode and encode agree, for every operation and every code that the
encoding admits. -/
def Obligations.DecodeEncodeAgree : Prop :=
  ∀ (c : Config) (i : Instr), i.wellFormed c.W = true → decode c.W (encode c.W i) = i

/-- `30_encoding.md` section 1, `95_test_vectors.md` sections 5 and 6: words written out in the spec
decode to the requests they stand for. -/
def Obligations.WrittenOutWordsDecode : Prop :=
  decode 8 0x16C = .decodeOne 0xB6 ∧ decode 8 0x16D = .decodeAll 0xB6 ∧
  decode 16 0x0001E = .decodeOne 0x000F ∧ decode 16 0x10843 = .decodeAll 0x8421 ∧
  decode 32 0x02468ACF0 = .decodeOne 0x12345678 ∧ decode 32 0x1FFFFFFFF = .decodeAll 0xFFFFFFFF ∧
  decode 64 0x17285F13C43F81A80 = .decodeOne 0xB942F89E21FC0D40 ∧
  decode 64 0x15F7A8CEAEE73156D = .decodeAll 0xAFBD467577398AB6

/-- R49: the fields of the response word and its number. -/
def Obligations.ResponseWordLayout : Prop :=
  ∀ (c : Config) (r : Response), r.FitsPorts c →
    (r.pack c.W c.D).extractLsb' 0 1 = r.op ∧
    (∀ k v, r.lane k = some v →
      (r.pack c.W c.D).extractLsb' (k * c.W + 1) c.W = toWord c.W v) ∧
    (r.pack c.W c.D).toNat = r.op.toNat +
      ((List.range c.D).map fun k => (r.coord.getD k 0#64).toNat * 2 ^ (k * c.W + 1)).sum

/-- R50: the response to a request carries the request's own op, and the lanes of R76 or R77. -/
def Obligations.ResponseCarriesItsRequestsOp : Prop :=
  ∀ (c : Config) (code : Bus),
    let x := toWord c.W code
    (respond c (selectOp 0#1 code)).op = 0#1 ∧
    (respond c (selectOp 0#1 code)).coord =
      ofWord (deint c.W c.D x) :: List.replicate (c.D - 1) 0#64 ∧
    (respond c (selectOp 1#1 code)).op = 1#1 ∧
    (respond c (selectOp 1#1 code)).coord =
      (List.range c.D).map fun k => ofWord (deint c.W c.D (shr x k))

/-- R25: exactly D lanes of W bits; lane k carries coordinate k for `DECODE_ALL`; for `DECODE_ONE`
lane 0 carries coordinate 0 and the others 0. The output ports show them while `out_valid = 1`. -/
def Obligations.LanesCarryTheCoordinates : Prop :=
  ∀ (c : Config) (code : Bus),
    let x := toWord c.W code
    (∀ i : Instr, (respond c i).FitsPorts c) ∧
    (∀ k, k < c.D →
      (respond c (.decodeAll code)).lane k = some (ofWord (coordinate c.W c.D k x))) ∧
    (respond c (.decodeOne code)).lane 0 = some (ofWord (coordinate c.W c.D 0 x)) ∧
    (∀ k, 1 ≤ k → k < c.D → (respond c (.decodeOne code)).lane k = some 0#64) ∧
    ∀ (s : State) (r : Response) (cycle k : Nat), s.out = some r →
      s.outValid = true ∧ s.outOp cycle = r.op ∧ s.outCoord c cycle k = r.lane k

/-! ## One clock cycle -/

/-- The fixed names are the family's at the instance of log entry 2 (DESIGN CHOICE), so what is said
of every configuration is said of them. -/
def Obligations.FixedNamesAreOneOfTheFamily : Prop :=
  (∀ (i : Instr) (s : State), exec i s = execIn instanceConfig i s) ∧
  (∀ s : State, step s = stepIn instanceConfig s) ∧
  State.reset = State.resetOf instanceConfig ∧ core = coreIn instanceConfig

/-- `10_state.md` section 2, `70_reset_and_hazards.md` section 2: a cycle that presents a request
runs the decoded operation, on the state whose planned inputs have moved on by one cycle (the
model's place for the inputs, log entry 4). -/
def Obligations.StepRunsTheDecodedRequest : Prop :=
  (∀ (c : Config) (s : State) (p : InPorts) (rest : List InPorts) (i : Instr),
    s.inputs = p :: rest → p.rst = false → p.inValid = true →
    decode c.W (p.request c.W) = i →
    i.wellFormed c.W = true ∧ stepIn c s = execIn c i { s with inputs := rest }) ∧
  ∀ (s : State) (p : InPorts) (rest : List InPorts) (i : Instr),
    s.inputs = p :: rest → p.rst = false → p.inValid = true →
    decode instanceConfig.W (p.request instanceConfig.W) = i →
    i.wellFormed instanceConfig.W = true ∧ step s = exec i { s with inputs := rest }

/-- R89: no operation and no cycle faults or is refused, and an accepted request always produces
its response, on the outputs with LATENCY = 0 and at `P[1]` otherwise. The clauses about the fixed
`exec` and `step` are the same at `instanceConfig` and hold whatever configuration it is; which one
it is is DESIGN CHOICE, log entry 2, and no clause rests on it. -/
def Obligations.NothingFaults : Prop :=
  (∀ (c : Config) (i : Instr) (s : State), ∃ t, execIn c i s = .next t ∧
    (if c.latency = 0 then t.out else pipeEntry t.pipe 1) = some (respond c i)) ∧
  (∀ (c : Config) (s : State), ∃ t, stepIn c s = .next t) ∧
  (∀ (i : Instr) (s : State), ∃ t, exec i s = .next t ∧
    (if instanceConfig.latency = 0 then t.out else pipeEntry t.pipe 1) =
      some (respond instanceConfig i)) ∧
  ∀ s : State, ∃ t, step s = .next t

/-- `70_reset_and_hazards.md` section 2, `10_state.md` section 5: a reset edge empties the whole
pipeline, with out_valid = 0; one cycle is enough, and a longer reset has the same effect. The
planned inputs move on by one cycle (DESIGN CHOICE, log entry 4). -/
def Obligations.ResetEmptiesThePipeline : Prop :=
  ∀ (c : Config) (s : State) (p : InPorts) (rest : List InPorts),
    s.inputs = p :: rest → p.rst = true →
    ∃ t, stepIn c s = .next t ∧ t.pipe = List.replicate c.latency none ∧
      (∀ i, 1 ≤ i → i ≤ c.latency → pipeEntry t.pipe i = none) ∧
      t.inputs = rest ∧ t.outValid = false ∧
      ∀ (q : InPorts) (rest' : List InPorts), rest = q :: rest' → q.rst = true →
        ∃ u, stepIn c t = .next u ∧ u.pipe = t.pipe ∧ u.out = t.out

/-- R107: a request is accepted exactly where `in_valid = 1` and `rst = 0`; it is the pair sampled
in that cycle (its place in State: log entry 4). Accepted, its response enters (on the outputs with
LATENCY = 0); otherwise nothing does. -/
def Obligations.AcceptanceRule : Prop :=
  ∀ (c : Config) (s : State) (p : InPorts) (rest : List InPorts), s.inputs = p :: rest →
    ∃ t, stepIn c s = .next t ∧
      (p.inValid = true → p.rst = false →
        (if c.latency = 0 then t.out else pipeEntry t.pipe 1) =
          some (respond c (selectOp p.inOp p.inCode))) ∧
      (¬ (p.inValid = true ∧ p.rst = false) →
        (if c.latency = 0 then t.out else pipeEntry t.pipe 1) = none)

/-- R108: with LATENCY = 0 the outputs are a function of the inputs of the same cycle, and there is
no state. -/
def Obligations.CombinationalWithoutLatency : Prop :=
  ∀ (c : Config) (s : State), c.latency = 0 →
    let p := currentPorts s
    ∃ t, stepIn c s = .next t ∧ t.outValid = (p.inValid && !p.rst) ∧
      (t.outValid = true → t.out = some (respond c (selectOp p.inOp p.inCode))) ∧ t.pipe = []

/-- R109: with LATENCY = L ≥ 1, what the outputs hold in a cycle and how the edge that ends it
updates the pipeline. The premise is the invariant that the pipeline has L entries
(`WellFormedKeptByEveryStep`). -/
def Obligations.PipelineUpdate : Prop :=
  ∀ (c : Config) (s : State), 1 ≤ c.latency → s.pipe.length = c.latency →
    let p := currentPorts s
    ∃ t, stepIn c s = .next t ∧
      t.outValid = ((pipeEntry s.pipe c.latency).isSome && !p.rst) ∧
      (t.outValid = true → t.out = pipeEntry s.pipe c.latency) ∧
      t.pipe.length = c.latency ∧
      (p.rst = true → ∀ i, 1 ≤ i → i ≤ c.latency → pipeEntry t.pipe i = none) ∧
      (p.rst = false →
        (∀ i, 2 ≤ i → i ≤ c.latency → pipeEntry t.pipe i = pipeEntry s.pipe (i - 1)) ∧
        pipeEntry t.pipe 1 = if p.inValid = true then
          some (respond c (selectOp p.inOp p.inCode)) else none)

/-- `10_state.md` section 3 (when `in_valid = 0` the op and code are ignored) and U8: two cycles
that differ only in ignored port values have the same effect. -/
def Obligations.IgnoredInputsHaveNoEffect : Prop :=
  ∀ (c : Config) (s : State) (p q : InPorts) (rest : List InPorts),
    p.rst = q.rst → p.rst = true ∨ p.inValid = false ∧ q.inValid = false →
    stepIn c { s with inputs := p :: rest } = stepIn c { s with inputs := q :: rest }

/-- R94: when a request and reset coincide, reset wins and the request is not accepted: the cycle
is that of reset without a request. -/
def Obligations.ResetWinsOverARequest : Prop :=
  ∀ (c : Config) (s : State) (i : Instr) (rest : List InPorts),
    stepIn c { s with inputs := { requestPorts i with rst := true } :: rest } =
      stepIn c { s with inputs := resetPorts :: rest }

/-- R111: after a reset edge the pipeline is empty, so with L ≥ 1 `out_valid = 0` in the next cycle,
whatever is presented in it. The constants are parameters of the step, which reset cannot touch. -/
def Obligations.NothingValidRightAfterReset : Prop :=
  ∀ (c : Config) (s t u : State), (currentPorts s).rst = true → stepIn c s = .next t →
    (∀ e ∈ t.pipe, e = none) ∧
    (1 ≤ c.latency → stepIn c t = .next u → u.outValid = false)

/-! ## Several cycles -/

/-- `10_state.md` section 1: after any number of cycles, with any requests and resets among them, the
next request gets the response of the configuration the instance was elaborated with: a function of
its op, its code and that configuration alone. Planned inputs stand in State by log entry 4. -/
def Obligations.ConfigurationNeverChanges : Prop :=
  ∀ (c : Config) (s t : State) (n : Nat),
    Host.Core.run (coreIn c) n s = .next t →
    (plannedPorts s n).inValid = true → (plannedPorts s n).rst = false →
    ∃ u, stepIn c t = .next u ∧
      (if c.latency = 0 then u.out else pipeEntry u.pipe 1) =
        some (respond c (selectOp (plannedPorts s n).inOp (plannedPorts s n).inCode))

/-- R110: the response of the request accepted in cycle n stands on the outputs in cycle
n + LATENCY exactly when `rst = 0` in each of the cycles n to n + LATENCY; every valid output is
the response of the request accepted exactly LATENCY cycles earlier, from any start state, and in
the first LATENCY cycles after a reset state nothing is valid. Cycle n of a state is the cycle the
(n+1)-th step runs; beyond the planned inputs a cycle is IDLE (DESIGN CHOICE, log entry 4). -/
def Obligations.DeliveryExactlyLatencyLater : Prop :=
  ∀ c : Config,
    (∀ (s : State) (n : Nat),
      let p := plannedPorts s n
      ∃ t : State, Host.Core.run (coreIn c) (n + c.latency + 1) s = .next t ∧
        ∀ r, t.out = some r ↔
          p.inValid = true ∧ s.NoResetFrom n (n + c.latency) ∧
          r = respond c (selectOp p.inOp p.inCode)) ∧
    ∀ (s : State) (n : Nat), (∀ e ∈ s.pipe, e = none) → n < c.latency →
      ∃ t : State, Host.Core.run (coreIn c) (n + 1) s = .next t ∧ t.outValid = false

/-- R104: with an empty pipeline at the start and no reset from the first acceptance (in `body`) to
LATENCY cycles after the last (`tail`), the sequence of responses delivered is that of `F(op, code)`
over the accepted requests, in order, for every LATENCY: no other part of the state enters it. The
cycles before (`before`) and after (`rest`) accept nothing and may hold resets; beyond the planned
inputs, which n may reach, a cycle is IDLE (DESIGN CHOICE, log entry 4). -/
def Obligations.DeliveredSequenceIsF : Prop :=
  ∀ (c : Config) (s : State) (before body tail rest : List InPorts) (n : Nat),
    (∀ e ∈ s.pipe, e = none) →
    s.inputs = before ++ body ++ tail ++ rest →
    (∀ p ∈ before ++ tail ++ rest, p.accepts = false) →
    (∀ p ∈ body ++ tail, p.rst = false) →
    tail.length = c.latency →
    before.length + body.length + tail.length ≤ n →
    State.delivered c n s = (body.filter fun p => p.inValid).map
      fun p => respond c (selectOp p.inOp p.inCode)

/-- `70_reset_and_hazards.md` section 2: what stood in the pipeline at the start, power-up contents
included (log entry 8), is forgotten after LATENCY cycles: from then on the pipelines agree, and so
do the outputs of every later cycle. The two instances have the same planned inputs (DESIGN CHOICE,
log entry 4). The premises on the lengths are the invariant of `WellFormedKeptByEveryStep`. -/
def Obligations.StartContentsDieOut : Prop :=
  ∀ (c : Config) (s s' : State) (n : Nat), s.inputs = s'.inputs →
    s.pipe.length = c.latency → s'.pipe.length = c.latency → c.latency ≤ n →
    ∃ t t' : State, Host.Core.run (coreIn c) n s = .next t ∧
      Host.Core.run (coreIn c) n s' = .next t' ∧ t.pipe = t'.pipe ∧
      t.inputs = t'.inputs ∧ (c.latency < n → t = t')

/-- `70_reset_and_hazards.md` section 3: from any power-up pipeline (`State.powerUp`: DESIGN CHOICE,
log entry 8) one cycle of reset gives the reset state, with the inputs planned after that cycle
(DESIGN CHOICE, log entry 4). -/
def Obligations.OneResetCycleFromPowerUp : Prop :=
  ∀ (c : Config) (pipe : List (Option Response)) (p : InPorts) (rest : List InPorts),
    p.rst = true →
    stepIn c { State.powerUp c pipe with inputs := p :: rest } =
      .next { State.resetOf c with inputs := rest }

/-! ## Invariants -/

/-- `10_state.md` section 4: the pipeline has exactly LATENCY entries, each EMPTY or a response of D
lanes of W bits; every step of an instance of any configuration keeps it, the fixed `step`'s among
them. -/
def Obligations.WellFormedKeptByEveryStep : Prop :=
  (∀ (c : Config) (s t : State), s.WellFormed c → stepIn c s = .next t → t.WellFormed c) ∧
  ∀ s t : State, s.WellFormed instanceConfig → step s = .next t → t.WellFormed instanceConfig

/-- `70_reset_and_hazards.md` section 2: everything in flight and on the outputs is the response of
some request; every step of an instance of any configuration keeps it, the fixed `step`'s among
them, so no response appears without a request. -/
def Obligations.GenuineKeptByEveryStep : Prop :=
  (∀ (c : Config) (s t : State), s.AllGenuine c → stepIn c s = .next t → t.AllGenuine c) ∧
  ∀ s t : State, s.AllGenuine instanceConfig → step s = .next t → t.AllGenuine instanceConfig

/-- `10_state.md` section 5: both invariants hold right after reset, of every configuration; the
configuration of `State.reset` itself is DESIGN CHOICE, log entry 2. -/
def Obligations.ResetMeetsTheInvariants : Prop :=
  (∀ c : Config, (State.resetOf c).WellFormed c ∧ (State.resetOf c).AllGenuine c) ∧
  State.reset.WellFormed instanceConfig ∧ State.reset.AllGenuine instanceConfig

/-- `41_deinterleave.md` section 3: what the invariant means on the ports: a delivered response has
D lanes, lane k below 2^L_k, and with `out_op = 0` the lanes from 1 on are 0. -/
def Obligations.DeliveredLanesAreBounded : Prop :=
  ∀ (c : Config) (s : State) (r : Response), s.AllGenuine c → s.out = some r →
    r.coord.length = c.D ∧
    (∀ k v, r.lane k = some v → v.toNat < 2 ^ coordWidth c.W c.D k) ∧
    (r.op = 0#1 → ∀ k, 1 ≤ k → k < c.D → r.lane k = some 0#64)

/-! ## Several instances -/

/-- `60_exceptions.md` section 3: instances share nothing (one instance clocked at a time: DESIGN
CHOICE, log entry 12). A cycle of instance n is its own step, of its own configuration on its own
state, so its new state depends on it alone; where there is no instance nothing changes; every
other instance stays as it was, and cycles of two of them commute. -/
def Obligations.InstancesAreIndependent : Prop :=
  ∀ (cfgs : List Config) (y : System) (n : Nat),
    ∃ yn, y.stepAt cfgs n = .next yn ∧ yn.members.length = y.members.length ∧
      (∀ c s, cfgs[n]? = some c → y.members[n]? = some s →
        ∃ t, stepIn c s = .next t ∧ yn.members[n]? = some t) ∧
      (cfgs[n]? = none ∨ y.members[n]? = none → yn = y) ∧
      ∀ m, n ≠ m → yn.members[m]? = y.members[m]? ∧
        ∃ ym z, y.stepAt cfgs m = .next ym ∧
          yn.stepAt cfgs m = .next z ∧ ym.stepAt cfgs n = .next z
end

