-- ==== Sys2Proof/Laws/PerInstr.lean ====
section
/-!
SUPPORT. What holds of every operation as syntax, one lemma per constructor.
-/

namespace Sys2Proof.Laws.EncodedOp

open Sys2Proof

/-- The op bit of the operation stands at bit 0 of its request word, for every word width
(`30_encoding.md` R44, R45). -/
def Statement (i : Instr) : Prop :=
  ∀ W, reqOp W (encode W i) = i.op

theorem reqOp_append (W : Nat) (x : Word W) (op : BitVec 1) :
    reqOp W ((x ++ op : BitVec (W + 1))) = op := by
  apply BitVec.eq_of_getLsbD_eq
  intro i hi
  have : i = 0 := by omega
  subst this
  rw [reqOp, BitVec.getLsbD_extractLsb', BitVec.getLsbD_append]
  simp

theorem decodeOne (code : Bus) : Statement (.decodeOne code) :=
  fun W => reqOp_append W _ _

theorem decodeAll (code : Bus) : Statement (.decodeAll code) :=
  fun W => reqOp_append W _ _

end Sys2Proof.Laws.EncodedOp
end

