-- ==== Sys2Proof/Laws/State.lean ====
section
/-!
SUPPORT. The small lemmas of the state: one per field per update, so that no proof unfolds a
record update.
-/

namespace Sys2Proof.Machine

open Sys2Proof

section Clock

variable (c : Config) (rst : Bool) (e : Option Response) (s : State)

@[simp] theorem clock_inputs : (clock c rst e s).inputs = s.inputs := rfl
@[simp] theorem clock_out : (clock c rst e s).out = outputsOf c rst e s.pipe := rfl
@[simp] theorem clock_true_pipe : (clock c true e s).pipe = clearedPipe c := rfl
@[simp] theorem clock_false_pipe : (clock c false e s).pipe = advancedPipe c e s.pipe := rfl

end Clock

section Cycles

variable (c : Config) (r : Response) (s : State)

@[simp] theorem acceptCycle_inputs : (acceptCycle c r s).inputs = s.inputs := rfl
@[simp] theorem acceptCycle_out :
    (acceptCycle c r s).out = outputsOf c false (some r) s.pipe := rfl
@[simp] theorem acceptCycle_pipe :
    (acceptCycle c r s).pipe = advancedPipe c (some r) s.pipe := rfl

@[simp] theorem idleCycle_inputs : (idleCycle c s).inputs = s.inputs := rfl
@[simp] theorem idleCycle_out : (idleCycle c s).out = outputsOf c false none s.pipe := rfl
@[simp] theorem idleCycle_pipe : (idleCycle c s).pipe = advancedPipe c none s.pipe := rfl

@[simp] theorem resetCycle_inputs : (resetCycle c s).inputs = s.inputs := rfl
@[simp] theorem resetCycle_out : (resetCycle c s).out = none := rfl
@[simp] theorem resetCycle_pipe : (resetCycle c s).pipe = clearedPipe c := rfl

end Cycles

section Inputs

variable (s : State)

@[simp] theorem advanceInputs_pipe : (advanceInputs s).pipe = s.pipe := rfl
@[simp] theorem advanceInputs_out : (advanceInputs s).out = s.out := rfl
@[simp] theorem advanceInputs_inputs : (advanceInputs s).inputs = s.inputs.tail := rfl

@[simp] theorem withFetchWord_pipe (nbits w : Nat) : (s.withFetchWord nbits w).pipe = s.pipe := rfl
@[simp] theorem withFetchWord_out (nbits w : Nat) : (s.withFetchWord nbits w).out = s.out := rfl
@[simp] theorem withFetchWord_inputs (nbits w : Nat) :
    (s.withFetchWord nbits w).inputs =
      portsOfWord instanceConfig.W (BitVec.ofNat (instanceConfig.W + 1) (w % 2 ^ nbits)) ::
        s.inputs.tail := rfl

theorem currentPorts_of_cons {p : InPorts} {rest : List InPorts} (h : s.inputs = p :: rest) :
    currentPorts s = p := by
  simp [currentPorts, h]

theorem currentPorts_of_nil (h : s.inputs = []) : currentPorts s = idlePorts := by
  simp [currentPorts, h]

theorem plannedPorts_zero : plannedPorts s 0 = currentPorts s := by
  unfold plannedPorts currentPorts
  cases s.inputs <;> rfl

theorem plannedPorts_succ (n : Nat) :
    plannedPorts s (n + 1) = plannedPorts (advanceInputs s) n := by
  unfold plannedPorts advanceInputs
  cases s.inputs <;> simp

end Inputs

section Reset

variable (c : Config)

@[simp] theorem resetOf_pipe : (State.resetOf c).pipe = List.replicate c.latency none := rfl
@[simp] theorem resetOf_out : (State.resetOf c).out = none := rfl
@[simp] theorem resetOf_inputs : (State.resetOf c).inputs = [] := rfl

variable (pipe : List (Option Response))

@[simp] theorem powerUp_pipe : (State.powerUp c pipe).pipe = pipe := rfl
@[simp] theorem powerUp_out : (State.powerUp c pipe).out = none := rfl
@[simp] theorem powerUp_inputs : (State.powerUp c pipe).inputs = [] := rfl

end Reset

end Sys2Proof.Machine
end

