-- ==== Sys2Proof/Laws/Words.lean ====
section
/-!
SUPPORT. What the word operations and the constants' helpers do, said once: bits of a Word, the
shifts, `ceil` and `clog2`, and the words held in a bus.
-/

namespace Sys2Proof.Machine

open Sys2Proof

theorem width_bits_le_64 (w : Width) : w.bits ≤ 64 := by
  cases w <;> decide

theorem config_W_le_64 (c : Config) : c.W ≤ 64 :=
  width_bits_le_64 c.width

theorem config_D_pos (c : Config) : 0 < c.D :=
  c.dims_pos

theorem config_D_le_W (c : Config) : c.D ≤ c.W :=
  c.dims_le

/-- Every bit of `ofBits p W`. -/
@[simp] theorem getLsbD_ofBits (p : Nat → Bool) (W i : Nat) :
    (ofBits p W).getLsbD i = (decide (i < W) && p i) := by
  induction W with
  | zero => simp [ofBits]
  | succ n ih =>
    rw [ofBits, BitVec.getLsbD_cons, ih]
    by_cases h : i = n
    · subst h; simp
    · by_cases h' : i < n
      · simp [h, h', Nat.lt_succ_of_lt h']
      · have : ¬ i < n + 1 := by omega
        simp [h, h', this]

@[simp] theorem getLsbD_shr {W : Nat} (a : Word W) (n i : Nat) :
    (shr a n).getLsbD i = a.getLsbD (n + i) := by
  simp [shr]

@[simp] theorem getLsbD_shl {W : Nat} (a : Word W) (n i : Nat) :
    (shl a n).getLsbD i = (decide (i < W) && !decide (i < n) && a.getLsbD (i - n)) := by
  simp [shl]

theorem getLsbD_stepMask (W D s b : Nat) :
    (stepMask W D s).getLsbD b = (decide (b < W) && maskBit D s b) := by
  simp [stepMask]

/-- `ceilDiv` is the ceiling: the least n with `b·n ≥ a`. -/
theorem ceilDiv_le_iff {a b n : Nat} (hb : 0 < b) : ceilDiv a b ≤ n ↔ a ≤ b * n := by
  unfold ceilDiv
  rw [Nat.div_le_iff_le_mul_add_pred hb]
  omega

theorem lt_ceilDiv_iff {a b n : Nat} (hb : 0 < b) : n < ceilDiv a b ↔ b * n < a := by
  have := ceilDiv_le_iff (a := a) (n := n) hb
  omega

theorem clog2From_spec (n : Nat) : ∀ fuel m, n ≤ 2 ^ (m + fuel) →
    (∀ k, k < m → ¬ n ≤ 2 ^ k) →
    n ≤ 2 ^ clog2From n m fuel ∧ ∀ k, n ≤ 2 ^ k → clog2From n m fuel ≤ k := by
  intro fuel
  induction fuel with
  | zero =>
    intro m h low
    exact ⟨h, fun k hk => by
      by_contra hlt
      exact low k (Nat.lt_of_not_le hlt) hk⟩
  | succ f ih =>
    intro m h low
    by_cases hm : n ≤ 2 ^ m
    · refine ⟨by simp [clog2From, hm], fun k hk => ?_⟩
      have : ¬ k < m := fun hlt => low k hlt hk
      simpa [clog2From, hm] using Nat.le_of_not_lt this
    · have := ih (m + 1) (by rwa [Nat.add_right_comm, Nat.add_assoc]) (fun k hk => by
        rcases Nat.lt_succ_iff_lt_or_eq.mp hk with hk | rfl
        · exact low k hk
        · exact hm)
      simpa [clog2From, hm] using this

/-- `clog2(n)` is the least m with `2^m ≥ n` (R14). -/
theorem clog2_le_iff {n k : Nat} : clog2 n ≤ k ↔ n ≤ 2 ^ k := by
  have h := clog2From_spec n n 0 (by simpa using (Nat.lt_two_pow_self (n := n)).le)
    (fun k hk => absurd hk (Nat.not_lt_zero k))
  exact ⟨fun hle => h.1.trans (Nat.pow_le_pow_right (by decide) hle), h.2 k⟩

theorem le_two_pow_clog2 (n : Nat) : n ≤ 2 ^ clog2 n :=
  clog2_le_iff.mp le_rfl

/-- What a held word carries over its bus, bit by bit. -/
@[simp] theorem getLsbD_toWord (W : Nat) (v : Bus) (i : Nat) :
    (toWord W v).getLsbD i = (decide (i < W) && v.getLsbD i) := by
  simp [toWord]

@[simp] theorem getLsbD_ofWord {W : Nat} (x : Word W) (i : Nat) :
    (ofWord x).getLsbD i = (decide (i < 64) && x.getLsbD i) := by
  simp [ofWord]

/-- A Word of a legal width is held whole. -/
theorem toWord_ofWord {W : Nat} (hW : W ≤ 64) (x : Word W) : toWord W (ofWord x) = x := by
  apply BitVec.eq_of_getLsbD_eq
  intro i hi
  have : i < 64 := by omega
  rw [getLsbD_toWord, getLsbD_ofWord]
  simp [this, hi]

/-- A held word below `2^W` is the Word its bus carries. -/
theorem ofWord_toWord {W : Nat} (v : Bus) (hv : v.toNat < 2 ^ W) : ofWord (toWord W v) = v := by
  apply BitVec.eq_of_toNat_eq
  simp only [ofWord, toWord, BitVec.toNat_setWidth]
  rw [Nat.mod_eq_of_lt hv, Nat.mod_eq_of_lt v.isLt]

theorem wellFormed_iff (W : Nat) (i : Instr) : i.wellFormed W = true ↔ i.code.toNat < 2 ^ W := by
  simp [Instr.wellFormed]

@[simp] theorem respond_op (c : Config) (i : Instr) : (respond c i).op = i.op := by
  cases i <;> rfl

@[simp] theorem length_respond_coord (c : Config) (i : Instr) :
    (respond c i).coord.length = c.D := by
  have := config_D_pos c
  cases i with
  | decodeOne code => simp [respond, respondOne, lanesOne]; omega
  | decodeAll code => simp [respond, respondAll, lanesAll]

/-- Only the low W bits of a code matter to its response. -/
theorem respond_selectOp_toWord (c : Config) (op : BitVec 1) (code : Bus) :
    respond c (selectOp op (ofWord (toWord c.W code))) = respond c (selectOp op code) := by
  unfold selectOp
  split <;> simp [respond, respondOne, respondAll, toWord_ofWord (config_W_le_64 c)]

end Sys2Proof.Machine
end

