-- ==== Sys2Proof/Laws/Step.lean ====
section
/-!
SUPPORT. What a cycle does to the pipeline, and what `exec` and `step` can answer, said once.
-/

namespace Sys2Proof.Machine

open Sys2Proof

/-- After an edge with `rst = 0` entry i is what stood at i−1, with the new entry at 1. -/
theorem pipeEntry_advancedPipe (c : Config) (e : Option Response) (pipe : List (Option Response))
    (i : Nat) (hi : i < c.latency) :
    pipeEntry (advancedPipe c e pipe) (i + 1) = if i = 0 then e else pipeEntry pipe i := by
  unfold pipeEntry advancedPipe
  cases i with
  | zero => simp [hi]
  | succ n => simp [hi]

theorem length_advancedPipe (c : Config) (e : Option Response) (pipe : List (Option Response))
    (h : pipe.length = c.latency) : (advancedPipe c e pipe).length = c.latency := by
  simp [advancedPipe, h]

@[simp] theorem length_clearedPipe (c : Config) : (clearedPipe c).length = c.latency := by
  simp [clearedPipe]

@[simp] theorem pipeEntry_clearedPipe (c : Config) (i : Nat) :
    pipeEntry (clearedPipe c) i = none := by
  unfold pipeEntry clearedPipe
  by_cases h : i - 1 < c.latency <;> simp [h]

theorem mem_advancedPipe {c : Config} {e x : Option Response} {pipe : List (Option Response)}
    (h : x ∈ advancedPipe c e pipe) : x = e ∨ x ∈ pipe := by
  simpa using List.mem_of_mem_take h

theorem mem_clearedPipe {c : Config} {x : Option Response} (h : x ∈ clearedPipe c) : x = none :=
  (List.mem_replicate.mp h).2

/-- The outputs hold the response of the request presented, an entry of the pipeline, or
nothing. -/
theorem outputsOf_cases {c : Config} {rst : Bool} {e : Option Response}
    {pipe : List (Option Response)} {r : Response} (h : outputsOf c rst e pipe = some r) :
    rst = false ∧ (c.latency = 0 ∧ e = some r ∨ 0 < c.latency ∧ some r ∈ pipe) := by
  unfold outputsOf at h
  cases rst with
  | true => simp at h
  | false =>
    refine ⟨rfl, ?_⟩
    by_cases hl : c.latency = 0
    · exact .inl ⟨hl, by simpa [hl] using h⟩
    · refine .inr ⟨Nat.pos_of_ne_zero hl, ?_⟩
      simp only [Bool.false_eq_true, if_false, hl, pipeEntry] at h
      exact List.mem_of_getElem? (Option.join_eq_some_iff.mp h)

/-- The meaning of every operation: its response enters the pipeline (R76, R77, R107). -/
theorem execIn_eq (c : Config) (i : Instr) (s : State) :
    execIn c i s = .next (acceptCycle c (respond c i) s) := by
  cases i <;> rfl

/-- The fixed `exec` is the family's at the instance behind the fixed names. -/
theorem exec_eq_execIn (i : Instr) (s : State) : exec i s = execIn instanceConfig i s := by
  cases i <;> rfl

/-- The request word on the ports decodes to the operation and the code the ports carry. -/
theorem decode_request (W : Nat) (p : InPorts) :
    decode W (p.request W) = selectOp p.inOp (ofWord (toWord W p.inCode)) := by
  have hop : reqOp W (p.request W) = p.inOp := by
    apply BitVec.eq_of_getLsbD_eq
    intro i hi
    have : i = 0 := by omega
    subst this
    rw [reqOp, InPorts.request, BitVec.getLsbD_extractLsb', BitVec.getLsbD_append]
    simp
  have hcode : reqCode W (p.request W) = toWord W p.inCode := by
    apply BitVec.eq_of_getLsbD_eq
    intro i hi
    rw [reqCode, InPorts.request, BitVec.getLsbD_extractLsb', BitVec.getLsbD_append]
    simp [hi]
  rw [decode, hop, hcode, ofWord]

/-- Everything a step can do: one clock cycle on the port values planned for it. -/
theorem stepIn_eq (c : Config) (s : State) :
    stepIn c s = .next (clock c (currentPorts s).rst (acceptedResponse c (currentPorts s))
      (advanceInputs s)) := by
  unfold stepIn cycleOn acceptedResponse InPorts.accepts
  cases (currentPorts s).rst <;> cases (currentPorts s).inValid
  · simp [idleCycle]
  · simp [execIn_eq, decode_request, respond_selectOp_toWord, acceptCycle]
  · simp [resetCycle]
  · simp [resetCycle, clock, outputsOf]

/-- The fixed `step` is the family's at the instance behind the fixed names. -/
theorem step_eq_stepIn (s : State) : step s = stepIn instanceConfig s := by
  unfold step stepIn cycleOn
  simp only [exec_eq_execIn]

/-- The state a step answers. -/
theorem stepIn_next {c : Config} {s t : State} (h : stepIn c s = .next t) :
    t = clock c (currentPorts s).rst (acceptedResponse c (currentPorts s))
      (advanceInputs s) := by
  rw [stepIn_eq] at h
  exact (Host.Outcome.next.inj h).symm

end Sys2Proof.Machine
end

