-- ==== Sys2Proof/Laws/Runs.lean ====
section
/-!
SUPPORT. Runs of several cycles and steps of several instances, once for all: a run never stops, it
composes, and what every step keeps holds after a run; a cycle of one instance is its own step.
-/

namespace Sys2Proof.Machine

open Sys2Proof

/-- Of any machine: where the first step goes on, the run does. -/
theorem run_of_step {M : Host.Core} {s t : M.State} (k : Nat) (h : M.step s = .next t) :
    M.run (k + 1) s = M.run k t := by
  simp [Host.Core.run, h]

variable (c : Config)

/-- One more cycle first. -/
theorem run_succ (k : Nat) (s : State) :
    Host.Core.run (coreIn c) (k + 1) s =
      Host.Core.run (coreIn c) k (clock c (currentPorts s).rst
        (acceptedResponse c (currentPorts s)) (advanceInputs s)) :=
  run_of_step (M := coreIn c) k (stepIn_eq c s)

/-- A run never stops. -/
theorem run_next (k : Nat) :
    ∀ s : State, ∃ t : State, Host.Core.run (coreIn c) k s = .next t := by
  induction k with
  | zero => exact fun s => ⟨s, rfl⟩
  | succ k ih => exact fun s => by rw [run_succ]; exact ih _

/-- A run of j + k cycles is a run of j and then one of k. -/
theorem run_add (j k : Nat) : ∀ s t : State, Host.Core.run (coreIn c) j s = .next t →
    Host.Core.run (coreIn c) (j + k) s = Host.Core.run (coreIn c) k t := by
  induction j with
  | zero =>
    intro s t h
    cases h
    rw [Nat.zero_add]
  | succ j ih =>
    intro s t h
    rw [run_succ] at h
    rw [Nat.add_right_comm, run_succ]
    exact ih _ t h

/-- What every step keeps holds after every run. -/
theorem run_keeps {Inv : State → Prop}
    (hstep : ∀ s t : State, Inv s → stepIn c s = .next t → Inv t) (k : Nat) :
    ∀ s t : State, Inv s → Host.Core.run (coreIn c) k s = .next t → Inv t := by
  induction k with
  | zero =>
    intro s t hs h
    cases h
    exact hs
  | succ k ih =>
    intro s t hs h
    rw [run_succ] at h
    exact ih _ t (hstep s _ hs (stepIn_eq c s)) h

/-- What is delivered in one more cycle first. -/
theorem delivered_succ (n : Nat) (s : State) :
    State.delivered c (n + 1) s =
      (outputsOf c (currentPorts s).rst (acceptedResponse c (currentPorts s)) s.pipe).toList ++
      State.delivered c n (clock c (currentPorts s).rst
        (acceptedResponse c (currentPorts s)) (advanceInputs s)) := by
  rw [State.delivered, stepIn_eq]
  rfl

/-- A cycle of the instance at place n is its own step, at its own place. -/
theorem System.stepAt_of_member {cfgs : List Config} {y : System} {n : Nat} {s t : State}
    (hc : cfgs[n]? = some c) (hs : y.members[n]? = some s) (ht : stepIn c s = .next t) :
    y.stepAt cfgs n = .next { members := y.members.set n t } := by
  simp [System.stepAt, hc, hs, ht]

/-- Where there is no instance nothing happens. -/
theorem System.stepAt_of_none {cfgs : List Config} {y : System} {n : Nat}
    (h : cfgs[n]? = none ∨ y.members[n]? = none) : y.stepAt cfgs n = .next y := by
  unfold System.stepAt
  rcases h with h | h
  · rw [h]
  · rw [h]
    cases cfgs[n]? <;> rfl

end Sys2Proof.Machine
end

