-- ==== Sys2Proof/Tests/Slice0.lean ====
section
/-!
SUPPORT. Tests of the model against the spec's own words and vectors (`95_test_vectors.md`), one
step each, and for every statement with hypotheses a witness: concrete values that meet them.
-/

namespace Sys2Proof.Tests

open Sys2Proof Sys2Proof.Machine

/-! ## Small configurations -/

/-- W = 8, D = 2. -/
def cfg82 (latency : Nat) : Config :=
  { width := .w8, dims := 2, latency := latency, dims_pos := by decide, dims_le := by decide }

/-- W = 8, D = 3. -/
def cfg83 (latency : Nat) : Config :=
  { width := .w8, dims := 3, latency := latency, dims_pos := by decide, dims_le := by decide }

/-- W = 8, D = 1. -/
def cfg81 : Config :=
  { width := .w8, dims := 1, latency := 1, dims_pos := by decide, dims_le := by decide }

/-- W = 8, D = 8. -/
def cfg88 : Config :=
  { width := .w8, dims := 8, latency := 0, dims_pos := by decide, dims_le := by decide }

/-- W = 32, D = 3. -/
def cfg323 : Config :=
  { width := .w32, dims := 3, latency := 2, dims_pos := by decide, dims_le := by decide }

/-- W = 64, D = 1, the widest shallow configuration (V-CFG-7). -/
def cfg641 : Config :=
  { width := .w64, dims := 1, latency := 0, dims_pos := by decide, dims_le := by decide }

/-- W = 64, D = 64. -/
def cfg6464 : Config :=
  { width := .w64, dims := 64, latency := 0, dims_pos := by decide, dims_le := by decide }

/-- An instance after reset with the given port values planned. -/
def planned (c : Config) (inputs : List InPorts) : State :=
  { State.resetOf c with inputs := inputs }

/-- A property of the state a step of an instance of configuration `c` answers. -/
def stepMeets (c : Config) (s : State) (p : State → Bool) : Bool :=
  match stepIn c s with
  | .next t => p t
  | .fault _ => false
  | .refused _ => false

/-! ## Well-formedness and elaboration refuse what is ill-formed -/

/-- A code of 9 bits is no W = 8 request; 0xFF is (R46). -/
theorem test_wellFormed_refuses_wide_code :
    (Instr.decodeOne 0x100).wellFormed 8 = false ∧ (Instr.decodeAll 0x100).wellFormed 8 = false ∧
      (Instr.decodeOne 0xFF).wellFormed 8 = true ∧ (Instr.decodeAll 0xFF).wellFormed 8 = true := by
  decide

/-- V-CFG-1 to V-CFG-4. -/
theorem test_elaborate_refuses_bad_dimensions_and_widths :
    elaborate { W := 8, D := 0, latency := 0 } = .error .dimensionCountZero ∧
    elaborate { W := 8, D := 9, latency := 0 } = .error .dimensionCountExceedsWidth ∧
    elaborate { W := 12, D := 3, latency := 0 } = .error .wordWidthNotSupported ∧
    elaborate { W := 128, D := 2, latency := 0 } = .error .wordWidthNotSupported := by
  decide

/-- V-CFG-5, and a latency of 5/2 (R90: "or not an integer"). -/
theorem test_elaborate_refuses_bad_latencies :
    elaborate { W := 8, D := 2, latency := -1 } = .error .latencyNotNatural ∧
    elaborate { W := 8, D := 2, latency := { num := 5, den := 2, reduced := by decide } } =
      .error .latencyNotNatural := by
  decide

/-- V-CFG-6 and V-CFG-7, the nearest legal ones. -/
theorem test_elaborate_accepts_the_boundaries :
    elaborate { W := 8, D := 8, latency := 0 } = .ok cfg88 ∧
    elaborate { W := 64, D := 1, latency := 0 } = .ok cfg641 := by
  decide

/-! ## Decoding, from request words the spec writes out -/

/-- V-DEC-7, V-DEC-98, V-DEC-119, V-DEC-161: bit 0 is 0. -/
theorem test_decode_decodeOne :
    decode 8 0x1C4 = .decodeOne 0xE2 ∧ decode 16 0x08B5A = .decodeOne 0x45AD ∧
    decode 32 0x177A77902 = .decodeOne 0xBBD3BC81 ∧
    decode 64 0x0799454C740F3D088 = .decodeOne 0x3CCA2A63A079E844 := by
  decide

/-- V-DEC-6, V-DEC-69, V-DEC-118, V-DEC-167: bit 0 is 1. -/
theorem test_decode_decodeAll :
    decode 8 0x0E3 = .decodeAll 0x71 ∧ decode 16 0x0F48F = .decodeAll 0x7A47 ∧
    decode 32 0x065FB5F71 = .decodeAll 0x32FDAFB8 ∧
    decode 64 0x09B8A6C60805A5E35 = .decodeAll 0x4DC53630402D2F1A := by
  decide

/-- The table's two rows, read through the host's window on the decoder. -/
theorem test_decodeTableWord :
    decodeTableWord 8 0x0 = some (.decodeOne 0) ∧ decodeTableWord 8 0x1 = some (.decodeAll 0) ∧
      decodeTableWord 8 0xEB = some (.decodeAll 0x75) := by
  decide

/-! ## Constants, from the tables of `40_constants.md` R68 and `95_test_vectors.md` section 2 -/

/-- The step counts of R68, for every D of W = 8 and the corners of W = 64. -/
theorem test_stepCount_table :
    (List.range 8).map (fun d => stepCount 8 (d + 1)) = [4, 3, 3, 2, 2, 2, 2, 1] ∧
    [1, 2, 3, 4, 5, 7, 8, 9, 15, 16, 17, 31, 32, 33, 63, 64].map (stepCount 64) =
      [7, 6, 6, 5, 5, 5, 4, 4, 4, 3, 3, 3, 2, 2, 2, 1] := by
  decide

/-- Rows of the mask table of R68 with groups cut off at the top. -/
theorem test_stepMask_table :
    (List.range 4).map (stepMask 16 3) = [0x9249, 0x30C3, 0xF00F, 0x00FF] ∧
    (List.range 5).map (stepMask 32 3) =
      [0x49249249, 0xC30C30C3, 0x0F00F00F, 0xFF0000FF, 0x0000FFFF] ∧
    (List.range 5).map (stepMask 64 5) =
      [0x1084210842108421, 0x300C0300C0300C03, 0xF0000F0000F0000F, 0x0000FF00000000FF,
        0x000000000000FFFF] := by
  decide +kernel

/-- V-BLD-4, V-BLD-5, V-BLD-7 and V-BLD-9 (a copy shifted by W contributes 0). -/
theorem test_build_vectors :
    build (0x03 : Word 8) 6 2 = 0xC3 ∧ build (0x00000001 : Word 32) 3 11 = 0x49249249 ∧
    build (0x000000000000000F : Word 64) 20 4 = 0xF0000F0000F0000F ∧
    build (0x01 : Word 8) 8 2 = 0x01 := by
  decide

/-- The step trace of DEINT for W = 32, D = 3 in `95_test_vectors.md` section 3. -/
theorem test_deint_trace :
    (List.range 5).map (fun s => afterStep 32 3 s 0x49249249) =
      [0x49249249, 0x430C30C3, 0x0700F00F, 0x070000FF, 0x000007FF] := by
  decide

/-- The compact constants of published decoders would lose bit 30 and bit 31
(`93_implementation_defined.md` G1). -/
theorem test_top_bits_survive :
    (respond cfg323 (.decodeAll 0xC0000000)).coord = [0x400, 0x400, 0] := by
  decide

/-! ## The two operations, one step each -/

/-- Program P1, cycle 1: `DECODE_ONE 0xB6` at W = 8, D = 2, LATENCY = 0. -/
theorem test_decodeOne_combinational :
    stepMeets (cfg82 0) (planned (cfg82 0) [requestPorts (.decodeOne 0xB6)]) fun t =>
      decide (t.out = some { op := 0, coord := [0x06, 0x00] }) := by
  decide

/-- Program P4, cycle 2: `DECODE_ONE 0x3A` enters P[1] while `P[1]` of cycle 1 is delivered. -/
theorem test_decodeOne_pipelined :
    stepMeets (cfg83 1) { planned (cfg83 1) [requestPorts (.decodeOne 0x3A)] with
        pipe := [some { op := 1, coord := [0x05, 0x02, 0x03] }] } fun t =>
      decide (t.pipe = [some { op := 0, coord := [0x02, 0x00, 0x00] }]) &&
        decide (t.out = some { op := 1, coord := [0x05, 0x02, 0x03] }) := by
  decide

/-- Program P1, cycle 0: `DECODE_ALL 0xB6` at W = 8, D = 2, LATENCY = 0, and its response word. -/
theorem test_decodeAll_combinational :
    (stepMeets (cfg82 0) (planned (cfg82 0) [requestPorts (.decodeAll 0xB6)]) fun t =>
      decide (t.out = some { op := 1, coord := [0x06, 0x0D] })) ∧
    (Response.pack 8 2 { op := 1, coord := [0x06, 0x0D] }) = 0x1A0D := by
  decide

/-- V-DEC-167 through the pipeline of `State.reset` (W = 64, D = 3, LATENCY = 1). -/
theorem test_decodeAll_wide :
    stepMeets instanceConfig (planned instanceConfig [requestPorts (.decodeAll 0x4DC53630402D2F1A)]) fun t =>
      decide (t.pipe = [some { op := 1, coord := [0x5D4CA, 0xC107B, 0x1D600C] }]) &&
        decide (t.out = none) := by
  decide +kernel

/-- Program P3, cycle 3: reset discards what is in flight and delivers nothing. -/
theorem test_reset_discards :
    stepMeets (cfg82 1) { planned (cfg82 1) [resetPorts] with
        pipe := [some { op := 1, coord := [0x0F, 0x0F] }] } fun t =>
      decide (t.pipe = [none]) && decide (t.out = none) := by
  decide

/-- Program P2, cycle 5: an idle cycle delivers and advances. -/
theorem test_idle_advances :
    stepMeets cfg323 { planned cfg323 [] with
        pipe := [none, some { op := 0, coord := [0xDE, 0, 0] }] } fun t =>
      decide (t.pipe = [none, none]) && decide (t.out = some { op := 0, coord := [0xDE, 0, 0] }) := by
  decide

/-- The host's window: the word placed is the request the next step runs. -/
theorem test_withFetchWord :
    step (State.reset.withFetchWord 8 0x2B) = exec (.decodeAll 0x15) State.reset :=
  rfl

/-! ## Witnesses: values that meet a statement's hypotheses -/

theorem witness_ElaborationAcceptsExactlyTheLegal :
    (∃ c, elaborate { W := 32, D := 32, latency := 7 } = .ok c) ∧
      ((7 : Rat) = ((7 : Nat) : Rat)) :=
  ⟨⟨_, rfl⟩, by norm_num⟩

/-- One value for each disjunct, at its boundary. -/
theorem witness_ConfigurationErrorsAreRefused :
    (({ W := 8, D := 0, latency := 0 } : RawConfig).D = 0) ∧
    (({ W := 8, D := 9, latency := 0 } : RawConfig).W <
      ({ W := 8, D := 9, latency := 0 } : RawConfig).D) ∧
    (¬ ((9 : Int) = 8 ∨ (9 : Int) = 16 ∨ (9 : Int) = 32 ∨ (9 : Int) = 64)) ∧
    ((-1 : Rat) < 0) ∧ ¬ ∃ n : Int, (1 / 2 : Rat) = (n : Rat) := by
  refine ⟨rfl, by decide, by decide, by norm_num, ?_⟩
  rintro ⟨n, h⟩
  have h2 : (1 : Rat) = ((2 * n : Int) : Rat) := by push_cast; linarith
  have h3 : (1 : Int) = 2 * n := by exact_mod_cast h2
  omega

theorem witness_StepCountGuardRejectsZeroWidth :
    stepCountGuarded 8 0 = none ∧ stepCountGuarded 8 9 = none ∧
      stepCountGuarded 8 8 = some 1 := by
  decide

/-- Shifts at the width's boundary. -/
theorem witness_WordOperators :
    shl (0xFF : Word 8) 8 = 0 ∧ shl (0xFF : Word 8) 7 = 0x80 ∧
      shr (0xFF : Word 8) 8 = 0 ∧ shr (0xFF : Word 8) 7 = 0x01 := by
  decide

theorem witness_OnesMaskSetsTheLowBits :
    0 ≤ 8 ∧ 8 ≤ 8 ∧ ones 8 8 = some 0xFF ∧ 8 < 9 ∧ ones 8 9 = none := by
  decide

theorem witness_BuilderOrsShiftedCopies :
    1 ≤ 8 ∧ 1 ≤ 2 ∧ (build (0x81 : Word 8) 1 1).getLsbD 7 = true ∧
      (build (0x81 : Word 8) 1 2).getLsbD 1 = true := by
  decide

/-- The last step of the widest configurations. -/
theorem witness_BuilderGivesTheStepMasks :
    stepCount cfg641.W cfg641.D - 1 = 6 ∧ stepMaskBuilt 64 1 6 = some (stepMask 64 1 6) ∧
      stepCount cfg6464.W cfg6464.D - 1 = 0 := by
  decide +kernel

/-- Values for the clauses: D = 1, D = 2, a step whose mask has a second group at its first bit, a
bit in the gap at each end, and the last bit of coordinate 0. -/
theorem witness_StepMaskProperties :
    cfg81.D = 1 ∧ (cfg82 0).D = 2 ∧ 1 ≤ stepCount 8 3 - 1 ∧ (cfg83 0).D * 2 ^ 1 < (cfg83 0).W ∧
      2 ^ 1 ≤ 2 ∧ 5 < (cfg83 0).D * 2 ^ 1 ∧ 2 < ceilDiv (cfg83 0).W (cfg83 0).D := by
  decide

theorem witness_StepCountIsLeastSufficient :
    1 ≤ 3 ∧ ceilDiv (cfg83 0).W (cfg83 0).D ≤ 2 ^ (3 - 1) ∧
      ¬ ceilDiv (cfg83 0).W (cfg83 0).D ≤ 2 ^ (2 - 1) := by
  decide

theorem witness_StepCountAgainstTheLiteral :
    (cfg82 0).D = 2 ^ 1 ∧ cfg88.D = 2 ^ 3 ∧ ¬ IsPowerOfTwo (cfg83 0).D := by
  refine ⟨rfl, rfl, ?_⟩
  rintro ⟨d, hd⟩
  have h3 : (3 : Nat) = 2 ^ d := hd
  match d with
  | 0 => simp at h3
  | d + 1 => rw [Nat.pow_succ] at h3; omega

theorem witness_ShiftAmountFormula : 1 ≤ 1 ∧ shiftAmount 3 1 = 2 := by
  decide

theorem witness_ShiftAmountsStayBelowWidth :
    1 ≤ 5 ∧ 5 ≤ stepCount 64 3 - 1 ∧ shiftAmount 3 5 = 32 := by
  decide

/-- An offset inside a group and one in the gap, at its two ends. -/
theorem witness_StepInvariant :
    1 ≤ 3 ∧ 7 < 8 ∧ 7 % (3 * 2 ^ 1) < 2 ^ 1 ∧ 2 ^ 1 ≤ 2 % (3 * 2 ^ 1) ∧
      2 ^ 1 ≤ 5 % (3 * 2 ^ 1) := by
  decide

/-- Bit 2 of coordinate 0 is its last in W = 8, D = 3. -/
theorem witness_DeintClosedForm :
    2 * (cfg83 0).D < (cfg83 0).W ∧ (cfg83 0).W ≤ 3 * (cfg83 0).D := by
  decide

/-- One count for each clause: S itself, the least one, the last one below S, and a D that is no
power of two. -/
theorem witness_ExtraStepsHarmlessMissingStepsWrong :
    stepCount (cfg83 0).W (cfg83 0).D ≤ 3 ∧ cfg81.D = 1 ∧ 2 ≤ (cfg83 0).D ∧
      2 < stepCount (cfg83 0).W (cfg83 0).D ∧ literalStepCount 8 3 = 2 ∧
      afterStep 8 3 1 (0x40 : Word 8) = 0x40 ∧ deint 8 3 (0x40 : Word 8) = 0x04 := by
  decide

/-- Values for the clauses: the codes 0 and all ones, D = 1, D = W, a top bit that reaches no
coordinate 0, and LATENCY 0 and 1. -/
theorem witness_DecodeOneRuns :
    (Instr.decodeOne 0xFF).wellFormed (cfg82 0).W = true ∧
    (Instr.decodeOne 0).wellFormed cfg81.W = true ∧
    ones 8 8 = some (toWord 8 0xFF) ∧ cfg81.D = 1 ∧ cfg88.D = cfg88.W ∧
    (∀ b, b < 64 → (0xAA : Bus).getLsbD b = true → b % (cfg82 0).D ≠ 0) ∧
    ((cfg82 0).W - 1) % (cfg82 0).D ≠ 0 ∧ (cfg82 0).latency = 0 ∧ 1 ≤ cfg81.latency ∧
    2 ≤ cfg323.latency := by
  decide

theorem witness_DecodeAllRuns :
    (Instr.decodeAll 0xFF).wellFormed (cfg83 0).W = true ∧
    (Instr.decodeAll 0xFF).wellFormed cfg81.W = true ∧
    (Instr.decodeAll 0xFF).wellFormed cfg88.W = true ∧
    ones 8 8 = some (toWord 8 0xFF) ∧ (cfg83 0).latency = 0 ∧ 1 ≤ cfg81.latency ∧
    2 ≤ cfg323.latency ∧ (respond (cfg83 0) (.decodeAll 0xFF)).lane 2 = some 0x03 := by
  decide

theorem witness_WorkingCopyLoopGivesTheSameLanes :
    (0x75 : Bus).toNat < 2 ^ (cfg83 0).W ∧ 2 < (cfg83 0).D := by
  decide

theorem witness_CoordinateWidths :
    2 < (cfg83 0).D ∧ (cfg82 0).W % (cfg82 0).D = 0 ∧
      (respond (cfg83 0) (.decodeAll 0xFF)).lane 2 = some 0x03 := by
  decide

/-- The last bit that has a place in the code, and the first that has none. -/
theorem witness_DecodeAllClosedForm :
    (0xFF : Bus).toNat < 2 ^ (cfg83 0).W ∧ 1 < (cfg83 0).D ∧ 2 * (cfg83 0).D + 1 < (cfg83 0).W ∧
      (cfg83 0).W ≤ 2 * (cfg83 0).D + 2 := by
  decide

theorem witness_OneDimensionIsTheIdentity :
    cfg81.D = 1 ∧ (0xFF : Bus).toNat < 2 ^ cfg81.W := by
  decide

/-- D divides W, and D does not divide W with a lane on each side of W mod D. -/
theorem witness_AllOnesCodeGivesOnesLanes :
    ones (cfg82 0).W (cfg82 0).W = some (toWord (cfg82 0).W 0xFF) ∧
    (cfg82 0).W % (cfg82 0).D = 0 ∧
    ones (cfg83 0).W (cfg83 0).W = some (toWord (cfg83 0).W 0xFF) ∧
    (cfg83 0).W % (cfg83 0).D = 2 ∧ 2 < (cfg83 0).D := by
  decide

/-- The tuple (5, 2, 3) of program P4, its code 0x75, and two tuples that differ in a lost bit. -/
theorem witness_RoundTrip :
    ([0x05, 0x02, 0x03] : List Bus).length = (cfg83 0).D ∧
    (∀ k, k < 3 → (([0x05, 0x02, 0x03] : List Bus).getD k 0).toNat < 2 ^ coordWidth 8 3 k) ∧
    interleave 8 3 [0x05, 0x02, 0x03] = 0x75 ∧ (0x75 : Bus).toNat < 2 ^ (cfg83 0).W ∧
    (∀ k, k < 3 → ∀ i, i < coordWidth 8 3 k →
      tupleBit [0x05, 0x02, 0x03] k i = tupleBit [0x05, 0x02, 0x07] k i) := by
  decide

theorem witness_DecodingIsByBitZero :
    (0x16C : BitVec 9).getLsbD 0 = false ∧ (0x16D : BitVec 9).getLsbD 0 = true := by
  decide

theorem witness_EveryRequestWordIsLegal : decode 8 0x1FF = decode 8 0x1FF ∧
    (decode 8 0x1FF).wellFormed 8 = true := by
  decide

theorem witness_DecodeEncodeAgree :
    (Instr.decodeOne 0xFF).wellFormed (cfg82 0).W = true ∧
      (Instr.decodeAll (BitVec.allOnes 64)).wellFormed instanceConfig.W = true := by
  decide +kernel

theorem witness_ResponseWordLayout :
    Response.FitsPorts (cfg82 0) { op := 1, coord := [0xFF, 0x0D] } ∧
      Response.lane { op := 1, coord := [0xFF, 0x0D] } 1 = some 0x0D := by
  refine ⟨⟨rfl, fun v hv => ?_⟩, rfl⟩
  simp only [List.mem_cons, List.not_mem_nil, or_false] at hv
  rcases hv with rfl | rfl <;> decide

theorem witness_LanesCarryTheCoordinates :
    1 < (cfg82 0).D ∧
      ({ State.resetOf (cfg82 0) with out := some { op := 1, coord := [6, 13] } } : State).out =
        some { op := 1, coord := [6, 13] } := by
  decide

theorem witness_StepRunsTheDecodedRequest :
    (planned (cfg82 1) [requestPorts (.decodeAll 0xB6)]).inputs =
      [requestPorts (.decodeAll 0xB6)] ∧
    (requestPorts (.decodeAll 0xB6)).rst = false ∧
    (requestPorts (.decodeAll 0xB6)).inValid = true ∧
    decode 8 ((requestPorts (.decodeAll 0xB6)).request 8) = .decodeAll 0xB6 := by
  decide

theorem witness_ResetEmptiesThePipeline :
    (planned cfg323 [resetPorts, resetPorts]).inputs = resetPorts :: [resetPorts] ∧
      resetPorts.rst = true ∧ 1 ≤ cfg323.latency := by
  decide

/-- An accepted request, an idle cycle, and a request in a reset cycle. -/
theorem witness_AcceptanceRule :
    (planned cfg323 [requestPorts (.decodeOne 1)]).inputs = [requestPorts (.decodeOne 1)] ∧
    (requestPorts (.decodeOne 1)).inValid = true ∧ (requestPorts (.decodeOne 1)).rst = false ∧
    idlePorts.inValid = false ∧
    ({ requestPorts (.decodeOne 1) with rst := true } : InPorts).rst = true := by
  decide

theorem witness_CombinationalWithoutLatency :
    (cfg82 0).latency = 0 ∧
      stepMeets (cfg82 0) (planned (cfg82 0) [requestPorts (.decodeOne 1)]) State.outValid = true := by
  decide

theorem witness_PipelineUpdate :
    1 ≤ cfg323.latency ∧
    (planned cfg323 [requestPorts (.decodeOne 1)]).pipe.length = cfg323.latency ∧
    (currentPorts (planned cfg323 [requestPorts (.decodeOne 1)])).rst = false ∧
    (currentPorts (planned cfg323 [resetPorts])).rst = true ∧ 2 ≤ cfg323.latency := by
  decide

theorem witness_IgnoredInputsHaveNoEffect :
    idlePorts.rst = ({ idlePorts with inOp := 1, inCode := 0xFF } : InPorts).rst ∧
    (idlePorts.inValid = false ∧
      ({ idlePorts with inOp := 1, inCode := 0xFF } : InPorts).inValid = false) ∧
    resetPorts.rst = ({ requestPorts (.decodeAll 1) with rst := true } : InPorts).rst ∧
    resetPorts.rst = true := by
  decide

/-- A request after a request and a reset. -/
theorem witness_ConfigurationNeverChanges :
    let s := planned cfg323 [requestPorts (.decodeAll 1), resetPorts, requestPorts (.decodeOne 1)]
    ∃ t : State, Host.Core.run (coreIn cfg323) 2 s = .next t ∧
      (plannedPorts s 2).inValid = true ∧ (plannedPorts s 2).rst = false :=
  ⟨_, rfl, rfl, rfl⟩

theorem witness_NothingValidRightAfterReset :
    ∃ t u : State, (currentPorts (planned cfg323 [resetPorts])).rst = true ∧
      stepIn cfg323 (planned cfg323 [resetPorts]) = .next t ∧ 1 ≤ cfg323.latency ∧
      stepIn cfg323 t = .next u :=
  ⟨_, _, rfl, rfl, by decide, rfl⟩

/-- A request, no reset until its response, and a cycle before the first response can come. -/
theorem witness_DeliveryExactlyLatencyLater :
    (plannedPorts (planned cfg323 [idlePorts, requestPorts (.decodeOne 1)]) 1).inValid = true ∧
    (planned cfg323 [idlePorts, requestPorts (.decodeOne 1)]).NoResetFrom 1 (1 + 2) ∧
    (∀ e ∈ (planned cfg323 []).pipe, e = none) ∧ 1 < cfg323.latency := by
  refine ⟨by decide, ?_, by decide, by decide⟩
  intro k h1 h2
  have h : k = 1 ∨ k = 2 ∨ k = 3 := by omega
  rcases h with rfl | rfl | rfl <;> rfl

theorem witness_DeliveredSequenceIsF :
    ∃ s : State, ∃ before body tail rest : List InPorts,
      (∀ e ∈ s.pipe, e = none) ∧ s.inputs = before ++ body ++ tail ++ rest ∧
      (∀ p ∈ before ++ tail ++ rest, p.accepts = false) ∧
      (∀ p ∈ body ++ tail, p.rst = false) ∧ tail.length = cfg323.latency ∧
      before.length + body.length + tail.length ≤ 6 :=
  ⟨planned cfg323 [resetPorts, requestPorts (.decodeAll 1), requestPorts (.decodeOne 2), idlePorts,
      idlePorts, resetPorts],
    [resetPorts], [requestPorts (.decodeAll 1), requestPorts (.decodeOne 2)],
    [idlePorts, idlePorts], [resetPorts], by decide⟩

theorem witness_StartContentsDieOut :
    let s := planned cfg323 [requestPorts (.decodeAll 1)]
    let s' := { s with pipe := [some { op := 1, coord := [1, 2, 3] }, none] }
    s.inputs = s'.inputs ∧ s.pipe.length = cfg323.latency ∧
      s'.pipe.length = cfg323.latency ∧ cfg323.latency ≤ 2 ∧ cfg323.latency < 3 := by
  decide

theorem witness_OneResetCycleFromPowerUp : resetPorts.rst = true := by
  decide

/-- Under a configuration of the family and under the fixed `step`'s. -/
theorem witness_WellFormedKeptByEveryStep :
    (∃ t, (planned cfg323 [requestPorts (.decodeAll 1)]).WellFormed cfg323 ∧
      stepIn cfg323 (planned cfg323 [requestPorts (.decodeAll 1)]) = .next t) ∧
    ∃ t, State.reset.WellFormed instanceConfig ∧ step State.reset = .next t :=
  ⟨⟨_, by decide, rfl⟩, ⟨_, by decide, rfl⟩⟩

/-- A state with one response in flight is genuine if that response is. -/
theorem allGenuine_of_one (c : Config) (i : Instr) (hl : c.latency = 1)
    (hi : i.wellFormed c.W = true) :
    State.AllGenuine c { State.resetOf c with pipe := [some (respond c i)] } := by
  refine ⟨hl.symm, ?_, ?_⟩
  · intro e he r hr
    obtain rfl : e = some (respond c i) := by simpa using he
    exact ⟨i, hi, (Option.some.inj hr).symm⟩
  · intro r hr
    exact absurd hr (by simp)

theorem witness_GenuineKeptByEveryStep :
    (∃ s t : State, s.AllGenuine (cfg82 1) ∧ stepIn (cfg82 1) s = .next t ∧
      s.pipe = [some (respond (cfg82 1) (.decodeAll 0xB6))]) ∧
    ∃ s t : State, s.AllGenuine instanceConfig ∧ step s = .next t ∧
      s.pipe = [some (respond instanceConfig (.decodeAll 0xB6))] :=
  ⟨⟨_, _, allGenuine_of_one (cfg82 1) (.decodeAll 0xB6) rfl (by decide), rfl, rfl⟩,
    ⟨_, _, allGenuine_of_one instanceConfig (.decodeAll 0xB6) rfl (by decide), rfl, rfl⟩⟩

theorem witness_DeliveredLanesAreBounded :
    ∃ (s : State) (r : Response), s.AllGenuine (cfg82 0) ∧ s.out = some r ∧ r.op = 0#1 ∧
      r.lane 0 = some 0x06 := by
  refine ⟨{ State.resetOf (cfg82 0) with out := some (respond (cfg82 0) (.decodeOne 0xB6)) },
    respond (cfg82 0) (.decodeOne 0xB6), ⟨rfl, ?_, ?_⟩, rfl, rfl, by decide⟩
  · intro e he
    exact absurd he (by simp [cfg82])
  · intro r hr
    exact ⟨.decodeOne 0xB6, by decide, (Option.some.inj hr).symm⟩

/-- Two instances, of which the cycle of the first changes it; and a place with no instance. -/
theorem witness_InstancesAreIndependent :
    let y : System := { members := [planned (cfg82 1) [requestPorts (.decodeAll 0xB6)],
      State.resetOf cfg323] }
    let cfgs := [cfg82 1, cfg323]
    (0 : Nat) ≠ 1 ∧ cfgs[0]? = some (cfg82 1) ∧
      y.members[0]? = some (planned (cfg82 1) [requestPorts (.decodeAll 0xB6)]) ∧
      cfgs[2]? = none ∧
      ∃ yn, y.stepAt cfgs 0 = .next yn ∧
        (yn.members.map State.pipe) = [[some { op := 1, coord := [0x06, 0x0D] }], [none, none]] :=
  ⟨by decide, rfl, rfl, rfl, _, rfl, by decide⟩

end Sys2Proof.Tests
end

section
/-!
Which configurations elaboration accepts (`00_scope.md` R11): it answers `c` exactly for the
request that names the parameters of `c`, so a request is legal iff such a `c` exists.
-/

namespace Sys2Proof.Machine

theorem widthOfBits_bits (w : Width) : widthOfBits (w.bits : Int) = some w := by
  cases w <;> rfl

theorem widthOfBits_eq_some_iff {x : Int} {w : Width} :
    widthOfBits x = some w ↔ (w.bits : Int) = x := by
  refine ⟨fun h => ?_, fun h => h ▸ widthOfBits_bits w⟩
  unfold widthOfBits at h
  split_ifs at h with h8 h16 h32 h64 <;> cases h
  exacts [h8.symm, h16.symm, h32.symm, h64.symm]

/-- The legal numbers of bits (R7) are those of the four widths. -/
theorem exists_bits_eq_iff {x : Int} :
    (∃ w : Width, (w.bits : Int) = x) ↔ x = 8 ∨ x = 16 ∨ x = 32 ∨ x = 64 := by
  constructor
  · rintro ⟨w, rfl⟩
    cases w <;> decide
  · rintro (rfl | rfl | rfl | rfl)
    exacts [⟨.w8, rfl⟩, ⟨.w16, rfl⟩, ⟨.w32, rfl⟩, ⟨.w64, rfl⟩]

/-- What elaboration tests of a latency: that it is the natural number it then takes. -/
theorem natCast_num_toNat_eq {q : Rat} (hden : q.den = 1) (hnum : 0 ≤ q.num) :
    (q.num.toNat : Rat) = q := by
  have hnat : ((q.num.toNat : Int) : Rat) = q.num := congrArg _ (Int.toNat_of_nonneg hnum)
  exact hnat.trans ((Rat.den_eq_one_iff q).mp hden)

/-- The one request that elaboration answers with `c` is the one for the parameters of `c`. -/
theorem elaborate_eq_ok_iff {r : RawConfig} {c : Config} :
    elaborate r = .ok c ↔
      (c.W : Int) = r.W ∧ (c.D : Int) = r.D ∧ (c.latency : Rat) = r.latency := by
  constructor
  · intro h
    unfold elaborate at h
    split at h
    case h_1 => cases h
    case h_2 w hw =>
      split_ifs at h with hpos hle hlat
      cases h
      exact ⟨widthOfBits_eq_some_iff.mp hw, Int.toNat_of_nonneg (by omega),
        natCast_num_toNat_eq hlat.1 hlat.2⟩
  · obtain ⟨W, D, latency⟩ := r
    rintro ⟨rfl, rfl, rfl⟩
    simp [elaborate, widthOfBits_bits, c.dims_pos, c.dims_le]

/-- R11: the parameters of a legal configuration. -/
theorem exists_config_iff {r : RawConfig} :
    (∃ c : Config, (c.W : Int) = r.W ∧ (c.D : Int) = r.D ∧ (c.latency : Rat) = r.latency) ↔
      (r.W = 8 ∨ r.W = 16 ∨ r.W = 32 ∨ r.W = 64) ∧ 1 ≤ r.D ∧ r.D ≤ r.W ∧
        ∃ n : Nat, r.latency = (n : Rat) := by
  rw [← exists_bits_eq_iff]
  constructor
  · rintro ⟨c, hW, hD, hlat⟩
    have hpos := config_D_pos c
    have hle := config_D_le_W c
    exact ⟨⟨c.width, hW⟩, by omega, by omega, c.latency, hlat.symm⟩
  · rintro ⟨⟨w, hW⟩, hpos, hle, n, hlat⟩
    exact ⟨{ width := w, dims := r.D.toNat, latency := n,
             dims_pos := by omega, dims_le := by omega },
      hW, Int.toNat_of_nonneg (by omega), hlat.symm⟩

/-- Settles O1, from the request that each accepted configuration answers. -/
theorem elaborationAcceptsExactlyTheLegal : Obligations.ElaborationAcceptsExactlyTheLegal := by
  intro r
  refine ⟨?_, fun c => elaborate_eq_ok_iff.mp⟩
  simp only [elaborate_eq_ok_iff]
  exact exists_config_iff

end Sys2Proof.Machine
end

section
/-!
The operators on Words as numbers and bit by bit (`00_scope.md` R13); the bits of the two shifts
are `getLsbD_shl` and `getLsbD_shr`.
-/

namespace Sys2Proof.Machine

section Operators

variable {W n : Nat} (a : Word W)

@[simp] theorem toNat_shl : (shl a n).toNat = a.toNat * 2 ^ n % 2 ^ W := by
  rw [shl, BitVec.toNat_shiftLeft, Nat.shiftLeft_eq]

@[simp] theorem toNat_shr : (shr a n).toNat = a.toNat / 2 ^ n := by
  rw [shr, BitVec.toNat_ushiftRight, Nat.shiftRight_eq_div_pow]

theorem shl_eq_zero_of_le (h : W ≤ n) : shl a n = 0#W :=
  BitVec.shiftLeft_eq_zero h

theorem shr_eq_zero_of_le (h : W ≤ n) : shr a n = 0#W :=
  BitVec.ushiftRight_eq_zero h

@[simp] theorem getLsbD_complement (i : Nat) :
    (complement a).getLsbD i = (decide (i < W) && !a.getLsbD i) :=
  BitVec.getLsbD_not

end Operators

/-- Settles O4, one law per operator. -/
theorem wordOperators : Obligations.WordOperators := fun _ _ a _ =>
  ⟨toNat_shl a, shl_eq_zero_of_le a, toNat_shr a, shr_eq_zero_of_le a, fun i =>
    ⟨BitVec.getLsbD_or, BitVec.getLsbD_and, getLsbD_complement a i⟩⟩

end Sys2Proof.Machine
end

section
/-!
The deinterleave steps bit by bit (`41_deinterleave.md` R73), the closed form of `DEINT` (R74) and
of a lane (R80). For a Word x, `fun i => x.getLsbD (i * D)` are the bits c[i] of coordinate 0.
-/

namespace Sys2Proof.Machine

/-- R73: `y` holds the bits `c` in groups of `w`, with `(D − 1)·w` clear bits behind each group. -/
def Grouped (D w : Nat) (c y : Nat → Bool) : Prop :=
  ∀ j t, t < D * w → y (j * (D * w) + t) = (decide (t < w) && c (j * w + t))

theorem maskBit_group {D s t : Nat} (j : Nat) (ht : t < D * 2 ^ s) :
    maskBit D s (j * (D * 2 ^ s) + t) = decide (t < 2 ^ s) := by
  rw [maskBit, Nat.mul_add_mod_self_right, Nat.mod_eq_of_lt ht]

@[simp] theorem getLsbD_stepZero {W : Nat} (D : Nat) (x : Word W) (p : Nat) :
    (stepZero W D x).getLsbD p = (x.getLsbD p && (stepMask W D 0).getLsbD p) :=
  BitVec.getLsbD_and

@[simp] theorem getLsbD_stepAt {W : Nat} (D s : Nat) (x : Word W) (p : Nat) :
    (stepAt W D s x).getLsbD p =
      ((x.getLsbD p || x.getLsbD (shiftAmount D s + p)) && (stepMask W D s).getLsbD p) := by
  simp [stepAt]

section Groups

variable {D w : Nat} {c y : Nat → Bool}

/-- The step of R73 where the mask keeps a bit: two groups of `w` become one of `2·w`, since ORing
the word shifted by `(D − 1)·w` puts the second group behind the first, where a gap was. For D = 1
there is no gap and no shift, and a bit is ORed with itself. -/
theorem Grouped.closeGap (hy : Grouped D w c y) (hD : 0 < D) (j : Nat) {t : Nat}
    (ht : t < 2 * w) :
    (y (j * (D * (2 * w)) + t) || y ((D - 1) * w + (j * (D * (2 * w)) + t))) =
      c (j * (2 * w) + t) := by
  obtain ⟨d, rfl⟩ : ∃ d, D = d + 1 := ⟨D - 1, by omega⟩
  have hgroup : (d + 1) * w = d * w + w := Nat.succ_mul d w
  have hgap : d = 0 ∨ w ≤ d * w := d.eq_zero_or_pos.imp_right (Nat.le_mul_of_pos_left w)
  have hplace : j * ((d + 1) * (2 * w)) = 2 * j * ((d + 1) * w) := by ring
  have hindex : j * (2 * w) = 2 * j * w := by ring
  rw [hplace, hindex, Nat.add_sub_cancel]
  by_cases hlow : t < w
  · have hhere := hy (2 * j) t (by omega)
    rcases hgap with rfl | hgap
    · simpa [hlow] using hhere
    · have hthere := hy (2 * j) (d * w + t) (by omega)
      rw [Nat.add_left_comm, hhere, hthere]
      simp [hlow, show ¬ d * w + t < w by omega]
  · obtain ⟨u, rfl⟩ : ∃ u, t = w + u := ⟨t - w, by omega⟩
    have hnext : (2 * j + 1) * ((d + 1) * w) + u = d * w + (2 * j * ((d + 1) * w) + (w + u)) := by
      ring
    have hthere := hy (2 * j + 1) u (by omega)
    rw [hnext, show (2 * j + 1) * w + u = 2 * j * w + (w + u) by ring] at hthere
    rcases hgap with rfl | hgap
    · simpa [show u < w by omega] using hthere
    · have hhere := hy (2 * j) (w + u) (by omega)
      rw [hhere, hthere]
      simp [show u < w by omega]

/-- R74: where the first group has room for all of `c`, the bits of `y` are those of `c`. -/
theorem Grouped.eq_of_fits (hy : Grouped D w c y) (hD : 0 < D) (hw : 0 < w)
    (hc : ∀ i, w ≤ i → c i = false) (i : Nat) : y i = c i := by
  have hgroup : w ≤ D * w := Nat.le_mul_of_pos_left w hD
  have hplace := hy (i / (D * w)) (i % (D * w)) (Nat.mod_lt i (hw.trans_le hgroup))
  rw [Nat.div_add_mod'] at hplace
  rw [hplace]
  rcases Nat.lt_or_ge i (D * w) with hfirst | hlater
  · rw [Nat.div_eq_of_lt hfirst, Nat.mod_eq_of_lt hfirst, Nat.zero_mul, Nat.zero_add]
    by_cases hi : i < w
    · simp [hi]
    · simp [hc i (Nat.le_of_not_lt hi)]
  · have hj : 0 < i / (D * w) := Nat.div_pos hlater (hw.trans_le hgroup)
    have hindex : w ≤ i / (D * w) * w + i % (D * w) :=
      (Nat.le_mul_of_pos_left w hj).trans (Nat.le_add_right _ _)
    simp [hc _ hindex, hc i (hgroup.trans hlater)]

end Groups

section Steps

variable {W D : Nat} (x : Word W)

/-- `MASK[s]` at a place of step s: it clears the gaps, and it cuts no coordinate bit off at W, since
every place of a bit lies at or below the bit's own place in the code. -/
theorem and_stepMask_group (hD : 0 < D) {s j t : Nat} (ht : t < D * 2 ^ s) {b : Bool}
    (hb : t < 2 ^ s → b = x.getLsbD ((j * 2 ^ s + t) * D)) :
    (b && (stepMask W D s).getLsbD (j * (D * 2 ^ s) + t)) =
      (decide (t < 2 ^ s) && x.getLsbD ((j * 2 ^ s + t) * D)) := by
  rw [getLsbD_stepMask, maskBit_group j ht]
  by_cases hlow : t < 2 ^ s
  · have hle : j * (D * 2 ^ s) + t ≤ (j * 2 ^ s + t) * D := by
      nlinarith [Nat.le_mul_of_pos_right t hD]
    by_cases hW : j * (D * 2 ^ s) + t < W
    · simp [hb hlow, hlow, hW]
    · simp [hW, BitVec.getLsbD_of_ge x _ (Nat.le_trans (Nat.le_of_not_lt hW) hle)]
  · simp [hlow]

/-- R73, by induction on the step. -/
theorem afterStep_grouped (hD : 0 < D) (s : Nat) :
    Grouped D (2 ^ s) (fun i => x.getLsbD (i * D)) (afterStep W D s x).getLsbD := by
  induction s with
  | zero =>
    intro j t ht
    rw [afterStep, getLsbD_stepZero]
    refine and_stepMask_group x hD ht fun hlow => ?_
    obtain rfl : t = 0 := by omega
    simp
  | succ s ih =>
    intro j t ht
    rw [afterStep, getLsbD_stepAt]
    refine and_stepMask_group x hD ht fun hlow => ?_
    rw [pow_succ'] at hlow ⊢
    exact ih.closeGap hD j hlow

/-- R74, R75: from the step on whose groups have room for a coordinate, bit i is code bit i·D. -/
theorem getLsbD_afterStep_of_fits (hD : 0 < D) {s : Nat} (hs : ceilDiv W D ≤ 2 ^ s) (i : Nat) :
    (afterStep W D s x).getLsbD i = x.getLsbD (i * D) := by
  refine (afterStep_grouped x hD s).eq_of_fits hD (Nat.two_pow_pos s) (fun i hi => ?_) i
  rw [Nat.mul_comm]
  exact BitVec.getLsbD_of_ge x _ ((ceilDiv_le_iff hD).mp (hs.trans hi))

/-- R74, bit by bit: S is a count of steps whose last groups have room for a coordinate (R62). -/
theorem getLsbD_deint (hD : 0 < D) (i : Nat) : (deint W D x).getLsbD i = x.getLsbD (i * D) :=
  getLsbD_afterStep_of_fits x hD (le_two_pow_clog2 _) i

/-- R80: lane k of `DECODE_ALL` is coordinate k of the data layout. -/
theorem deint_shr_eq_coordinate (hD : 0 < D) (k : Nat) :
    deint W D (shr x k) = coordinate W D k x := by
  apply BitVec.eq_of_getLsbD_eq
  intro i hi
  rw [getLsbD_deint _ hD, getLsbD_shr, coordinate, getLsbD_ofBits, decide_eq_true hi,
    Bool.true_and, Nat.add_comm]

theorem deint_eq_coordinate (hD : 0 < D) : deint W D x = coordinate W D 0 x := by
  have hshr : shr x 0 = x := BitVec.ushiftRight_zero x
  rw [← deint_shr_eq_coordinate x hD 0, hshr]

end Steps

end Sys2Proof.Machine
end

section
/-!
The lanes of a response (`10_state.md` R25; `41_deinterleave.md` R76, R77) and the output ports that
show them while `out_valid = 1` (R23).
-/

namespace Sys2Proof.Machine

theorem toNat_ofWord_lt {W : Nat} (x : Word W) : (ofWord x).toNat < 2 ^ W := by
  rw [ofWord, BitVec.toNat_setWidth]
  exact (Nat.mod_le _ _).trans_lt x.isLt

section Lanes

variable (c : Config) (code : Bus)

/-- Every lane of a response is a W-bit Word at rest. -/
theorem exists_word_of_mem_respond {i : Instr} {v : Bus} (hv : v ∈ (respond c i).coord) :
    ∃ x : Word c.W, ofWord x = v := by
  cases i <;>
  · obtain ⟨x, -, hx⟩ := List.mem_map.mp hv
    exact ⟨x, hx⟩

theorem respond_fitsPorts (i : Instr) : (respond c i).FitsPorts c := by
  refine ⟨length_respond_coord c i, fun v hv => ?_⟩
  obtain ⟨x, rfl⟩ := exists_word_of_mem_respond c hv
  exact toNat_ofWord_lt x

theorem lane_decodeAll {k : Nat} (hk : k < c.D) :
    (respond c (.decodeAll code)).lane k =
      some (ofWord (deint c.W c.D (shr (toWord c.W code) k))) := by
  simp [respond, respondAll, lanesAll, Response.lane, hk]

theorem lane_zero_decodeOne :
    (respond c (.decodeOne code)).lane 0 = some (ofWord (deint c.W c.D (toWord c.W code))) :=
  rfl

theorem lane_succ_decodeOne {k : Nat} (hk : k + 1 < c.D) :
    (respond c (.decodeOne code)).lane (k + 1) = some 0#64 := by
  simp [respond, respondOne, lanesOne, Response.lane, ofWord, Nat.lt_sub_of_add_lt hk]

end Lanes

section OutputPorts

variable {s : State} {r : Response} (h : s.out = some r)
include h

theorem outValid_of_out : s.outValid = true := by
  rw [State.outValid, h, Option.isSome_some]

theorem outOp_of_out (cycle : Nat) : s.outOp cycle = r.op := by
  rw [State.outOp, h]

theorem outCoord_of_out (c : Config) (cycle k : Nat) : s.outCoord c cycle k = r.lane k := by
  rw [State.outCoord, h]

end OutputPorts

/-- Settles O34: the lanes by the closed form of `DEINT`, the ports by their reading of `out`. -/
theorem lanesCarryTheCoordinates : Obligations.LanesCarryTheCoordinates := by
  intro c code
  have hD := config_D_pos c
  refine ⟨respond_fitsPorts c, fun k hk => ?_, ?_, fun k hpos hk => ?_, fun s r cycle k hout => ?_⟩
  · rw [lane_decodeAll c code hk, deint_shr_eq_coordinate _ hD]
  · rw [lane_zero_decodeOne, deint_eq_coordinate _ hD]
  · obtain ⟨k, rfl⟩ := Nat.exists_eq_add_of_le' hpos
    exact lane_succ_decodeOne c code hk
  · exact ⟨outValid_of_out hout, outOp_of_out hout cycle, outCoord_of_out hout c cycle k⟩

end Sys2Proof.Machine
end

section
/-!
The request word (`30_encoding.md` R44, R47, R48): it is its code above its op bit, and decoding it
and encoding again gives it back.
-/

namespace Sys2Proof.Machine

section Fields

variable {W : Nat}

/-- R44 as a number. -/
theorem toNat_append_op (x : Word W) (op : BitVec 1) :
    (x ++ op : BitVec (W + 1)).toNat = x.toNat * 2 + op.toNat := by
  rw [BitVec.toNat_append, ← Nat.shiftLeft_add_eq_or_of_lt op.isLt, Nat.shiftLeft_eq, pow_one]

theorem reqCode_append (x : Word W) (op : BitVec 1) : reqCode W (x ++ op : BitVec (W + 1)) = x :=
  BitVec.extractLsb'_append_eq_left

theorem reqCode_append_reqOp (req : BitVec (W + 1)) : reqCode W req ++ reqOp W req = req :=
  (BitVec.extractLsb'_append_extractLsb'_eq_extractLsb' rfl).trans BitVec.extractLsb'_eq_self

theorem reqOp_eq_ofBool (req : BitVec (W + 1)) : reqOp W req = BitVec.ofBool (req.getLsbD 0) := by
  apply BitVec.eq_of_getLsbD_eq
  intro i hi
  obtain rfl : i = 0 := by omega
  simp [reqOp]

end Fields

section SelectOp

variable (op : BitVec 1) (code : Bus)

@[simp] theorem selectOp_zero : selectOp 0#1 code = .decodeOne code :=
  rfl

@[simp] theorem selectOp_one : selectOp 1#1 code = .decodeAll code :=
  rfl

@[simp] theorem selectOp_code : (selectOp op code).code = code := by
  unfold selectOp
  split <;> rfl

@[simp] theorem selectOp_op : (selectOp op code).op = op := by
  rcases BitVec.eq_zero_or_eq_one op with rfl | rfl <;> rfl

end SelectOp

section Decode

variable {W : Nat} (req : BitVec (W + 1))

@[simp] theorem decode_code : (decode W req).code = ofWord (reqCode W req) :=
  selectOp_code _ _

@[simp] theorem decode_op : (decode W req).op = reqOp W req :=
  selectOp_op _ _

theorem decode_of_bit_zero_false (h : req.getLsbD 0 = false) :
    decode W req = .decodeOne (ofWord (reqCode W req)) := by
  rw [decode, reqOp_eq_ofBool, h]
  exact selectOp_zero _

theorem decode_of_bit_zero_true (h : req.getLsbD 0 = true) :
    decode W req = .decodeAll (ofWord (reqCode W req)) := by
  rw [decode, reqOp_eq_ofBool, h]
  exact selectOp_one _

theorem decode_wellFormed : (decode W req).wellFormed W = true := by
  rw [wellFormed_iff, decode_code]
  exact toNat_ofWord_lt _

/-- R48: no word is read as another's request. A legal W is a bus wide at most. -/
theorem encode_decode (hW : W ≤ 64) : encode W (decode W req) = req := by
  calc encode W (decode W req)
      = toWord W (decode W req).code ++ (decode W req).op := rfl
    _ = reqCode W req ++ reqOp W req := by rw [decode_code, decode_op, toWord_ofWord hW]
    _ = req := reqCode_append_reqOp req

/-- A row that masks all but bit 0 matches by that bit (R47). -/
theorem matchesWord_of_mask_one {row : OpcodeRow} {b : Bool} (hmask : row.mask = 1)
    (hmatch : row.matchBits = b.toNat) : row.matchesWord W req = (req.getLsbD 0 == b) := by
  rw [OpcodeRow.matchesWord, hmask, hmatch, BitVec.and_one_eq_setWidth_ofBool_getLsbD]
  cases req.getLsbD 0 <;> cases b <;> simp

/-- R47: exactly one row of the table matches a word, the row of the operation it decodes to. -/
theorem filter_matchesWord_opcodeTable :
    (opcodeTable.filter fun row => row.matchesWord W req).map OpcodeRow.mnemonic =
      [(decode W req).mnemonic] := by
  have hone := matchesWord_of_mask_one req (row := ⟨"DECODE_ONE", 0, 1⟩) (b := false) rfl rfl
  have hall := matchesWord_of_mask_one req (row := ⟨"DECODE_ALL", 1, 1⟩) (b := true) rfl rfl
  cases h : req.getLsbD 0 <;> rw [h] at hone hall
  · simp [opcodeTable, hone, hall, decode_of_bit_zero_false req h, Instr.mnemonic]
  · simp [opcodeTable, hone, hall, decode_of_bit_zero_true req h, Instr.mnemonic]

end Decode

/-- Settles O27: the ports carry the code above the op. -/
theorem requestWordLayout : Obligations.RequestWordLayout := fun _ _ =>
  ⟨toNat_append_op _ _, Laws.EncodedOp.reqOp_append _ _ _, reqCode_append _ _⟩

/-- Settles O28, by the two values of bit 0. -/
theorem decodingIsByBitZero : Obligations.DecodingIsByBitZero := fun _ req =>
  ⟨filter_matchesWord_opcodeTable req, decode_of_bit_zero_false req, decode_of_bit_zero_true req⟩

/-- Settles O29: the encoder is a left inverse of the decoder, which is therefore injective. -/
theorem everyRequestWordIsLegal : Obligations.EveryRequestWordIsLegal := fun c =>
  have henc : Function.LeftInverse (encode c.W) (decode c.W) :=
    fun req => encode_decode req (config_W_le_64 c)
  ⟨fun req => ⟨decode_wellFormed req, henc req⟩, fun _ _ h => henc.injective h⟩

end Sys2Proof.Machine
end

section
/-!
The response word (`30_encoding.md` R49): the lanes as digits of W bits above the op bit.
-/

namespace Sys2Proof.Machine

section Lanes

variable {W : Nat}

theorem packLanes_lt (lanes : List Bus) : packLanes W lanes < 2 ^ (lanes.length * W) := by
  induction lanes with
  | nil => simp [packLanes]
  | cons v rest ih =>
    have hv := (toWord W v).isLt
    rw [packLanes, List.length_cons, Nat.succ_mul, pow_add]
    calc (toWord W v).toNat + packLanes W rest * 2 ^ W
        < 2 ^ W + packLanes W rest * 2 ^ W := Nat.add_lt_add_right hv _
      _ = (packLanes W rest + 1) * 2 ^ W := by ring
      _ ≤ 2 ^ (rest.length * W) * 2 ^ W := Nat.mul_le_mul_right _ ih

/-- Lane k is digit k of the packed lanes. -/
theorem packLanes_digit {lanes : List Bus} {k : Nat} {v : Bus} (h : lanes[k]? = some v) :
    packLanes W lanes / 2 ^ (k * W) % 2 ^ W = (toWord W v).toNat := by
  induction lanes generalizing k with
  | nil => cases h
  | cons u rest ih =>
    have hu := (toWord W u).isLt
    cases k with
    | zero =>
      obtain rfl : u = v := by simpa using h
      simp [packLanes, Nat.mod_eq_of_lt hu]
    | succ k =>
      have hrest : packLanes W (u :: rest) / 2 ^ W = packLanes W rest := by
        rw [packLanes, Nat.add_mul_div_right _ _ (Nat.two_pow_pos W), Nat.div_eq_of_lt hu,
          Nat.zero_add]
      rw [Nat.succ_mul, Nat.add_comm, pow_add, ← Nat.div_div_eq_div_mul, hrest]
      exact ih (by simpa using h)

/-- The packed lanes above `n` more bits, as the sum of R49. -/
theorem sum_lanes_eq_packLanes (n : Nat) {lanes : List Bus} (h : ∀ v ∈ lanes, v.toNat < 2 ^ W) :
    ((List.range lanes.length).map fun k => (lanes.getD k 0#64).toNat * 2 ^ (k * W + n)).sum =
      packLanes W lanes * 2 ^ n := by
  induction lanes generalizing n with
  | nil => simp [packLanes]
  | cons v rest ih =>
    obtain ⟨hv, hrest⟩ := List.forall_mem_cons.mp h
    have hplace (k : Nat) : (k + 1) * W + n = k * W + (W + n) := by ring
    have htoWord : (toWord W v).toNat = v.toNat := by
      rw [toWord, BitVec.toNat_setWidth, Nat.mod_eq_of_lt hv]
    simp only [List.length_cons, List.range_succ_eq_map, List.map_cons, List.map_map,
      List.sum_cons, Function.comp_def, List.getD_cons_zero, List.getD_cons_succ,
      Nat.succ_eq_add_one, hplace, ih (W + n) hrest, packLanes, htoWord]
    ring

end Lanes

section Pack

variable {W D : Nat} {r : Response} (hlen : r.coord.length = D)
include hlen

/-- The packed response has room for all its lanes. -/
theorem toNat_pack : (r.pack W D).toNat = packLanes W r.coord * 2 + r.op.toNat := by
  have hlanes := packLanes_lt (W := W) r.coord
  have hop := r.op.isLt
  rw [hlen] at hlanes
  rw [Response.pack, BitVec.toNat_ofNat, Nat.mod_eq_of_lt]
  rw [pow_succ]
  omega

theorem pack_op : (r.pack W D).extractLsb' 0 1 = r.op := by
  apply BitVec.eq_of_toNat_eq
  rw [BitVec.extractLsb'_toNat, toNat_pack hlen, Nat.shiftRight_zero, pow_one,
    Nat.mul_add_mod_self_right, Nat.mod_eq_of_lt r.op.isLt]

theorem pack_lane {k : Nat} {v : Bus} (h : r.lane k = some v) :
    (r.pack W D).extractLsb' (k * W + 1) W = toWord W v := by
  have hop := r.op.isLt
  have hlanes : (packLanes W r.coord * 2 + r.op.toNat) / 2 = packLanes W r.coord := by omega
  apply BitVec.eq_of_toNat_eq
  rw [BitVec.extractLsb'_toNat, toNat_pack hlen, Nat.shiftRight_eq_div_pow, pow_succ',
    ← Nat.div_div_eq_div_mul, hlanes]
  exact packLanes_digit h

end Pack

/-- Settles O32: the packed word as a number, and its fields by division. -/
theorem responseWordLayout : Obligations.ResponseWordLayout := by
  intro c r ⟨hlen, hfits⟩
  refine ⟨pack_op hlen, fun k v => pack_lane hlen, ?_⟩
  rw [toNat_pack hlen, ← hlen, sum_lanes_eq_packLanes 1 hfits, pow_one, Nat.add_comm]

end Sys2Proof.Machine
end

section
/-!
The response carries its request's op and the lanes of its operation (`30_encoding.md` R50).
-/

namespace Sys2Proof.Machine

theorem coord_decodeOne (c : Config) (code : Bus) :
    (respond c (.decodeOne code)).coord =
      ofWord (deint c.W c.D (toWord c.W code)) :: List.replicate (c.D - 1) 0#64 := by
  simp [respond, respondOne, lanesOne, ofWord]

theorem coord_decodeAll (c : Config) (code : Bus) :
    (respond c (.decodeAll code)).coord =
      (List.range c.D).map fun k => ofWord (deint c.W c.D (shr (toWord c.W code) k)) := by
  simp [respond, respondAll, lanesAll]

/-- Settles O33: the operation that each op selects, and its lanes. -/
theorem responseCarriesItsRequestsOp : Obligations.ResponseCarriesItsRequestsOp := fun c code =>
  ⟨(respond_op c _).trans (selectOp_op _ _), coord_decodeOne c code,
    (respond_op c _).trans (selectOp_op _ _), coord_decodeAll c code⟩

end Sys2Proof.Machine
end

section
/-!
The ones-mask (`40_constants.md` R55, R56): one closed form for 0 ≤ n ≤ W, with the values at 0 and
at W that R55 singles out.
-/

namespace Sys2Proof.Machine

section Ones

variable {W n : Nat}

/-- R55: the cases n = 0 and n = W are no exceptions to `2^n − 1`. -/
theorem ones_of_le (hn : n ≤ W) : ones W n = some (BitVec.ofNat W (2 ^ n - 1)) := by
  unfold ones
  split_ifs with hzero hfull hlt
  · simp [hzero]
  · rw [hfull, complement, BitVec.not_zero, BitVec.allOnes, BitVec.ofNatLT_eq_ofNat]
  · rfl
  · omega

/-- R56: no value beyond W. -/
theorem ones_of_lt (hn : W < n) : ones W n = none := by
  simp [ones, show n ≠ 0 by omega, show n ≠ W by omega, show ¬ n < W by omega]

theorem getLsbD_two_pow_sub_one (hn : n ≤ W) (i : Nat) :
    (BitVec.ofNat W (2 ^ n - 1)).getLsbD i = decide (i < n) := by
  rw [BitVec.getLsbD_ofNat, Nat.testBit_two_pow_sub_one]
  by_cases hi : i < n
  · simp [hi, hi.trans_le hn]
  · simp [hi]

/-- A Word is `ONES(n)` where its bits are those of `ONES(n)`. -/
theorem ones_eq_some_of_bits (hn : n ≤ W) {v : Word W}
    (hv : ∀ i, i < W → v.getLsbD i = decide (i < n)) : ones W n = some v := by
  rw [ones_of_le hn]
  refine congrArg some (BitVec.eq_of_getLsbD_eq fun i hi => ?_)
  rw [getLsbD_two_pow_sub_one hn, hv i hi]

end Ones

/-- Settles O5, from the closed form. -/
theorem onesMaskSetsTheLowBits : Obligations.OnesMaskSetsTheLowBits :=
  ⟨fun _ _ hn => ⟨_, ones_of_le hn, getLsbD_two_pow_sub_one hn⟩, fun _ _ => ones_of_lt,
    fun _ => ⟨ones_of_le (Nat.zero_le _), ones_of_le le_rfl⟩, by decide⟩

end Sys2Proof.Machine
end

section
/-!
The step count against W and the shift amounts (`40_constants.md` R62, R64, R65): s = S − 1 is the
first step whose period `D·2^s` reaches W.
-/

namespace Sys2Proof.Machine

theorem exists_bits_eq_two_pow_succ (w : Width) : ∃ k, w.bits = 2 ^ (k + 1) := by
  cases w
  exacts [⟨2, rfl⟩, ⟨3, rfl⟩, ⟨4, rfl⟩, ⟨5, rfl⟩]

section Periods

variable {W D s : Nat}

theorem lt_stepCount_sub_one_iff_ceilDiv {k : Nat} :
    k < stepCount W D - 1 ↔ 2 ^ k < ceilDiv W D :=
  lt_iff_lt_of_le_iff_le clog2_le_iff

theorem stepCount_sub_one_le_iff (hD : 0 < D) : stepCount W D - 1 ≤ s ↔ W ≤ D * 2 ^ s :=
  clog2_le_iff.trans (ceilDiv_le_iff hD)

theorem lt_stepCount_sub_one_iff (hD : 0 < D) : s < stepCount W D - 1 ↔ D * 2 ^ s < W :=
  lt_iff_lt_of_le_iff_le (stepCount_sub_one_le_iff hD)

/-- R59: W is a power of two, and a period of that many times D bits reaches W. -/
theorem two_pow_le_width {c : Config} (hs : s ≤ stepCount c.W c.D - 1) : 2 ^ s ≤ c.W := by
  obtain ⟨k, hk⟩ := exists_bits_eq_two_pow_succ c.width
  have hreach : c.W ≤ c.D * 2 ^ (k + 1) := hk ▸ Nat.le_mul_of_pos_left _ (config_D_pos c)
  have hlast : s ≤ k + 1 := hs.trans ((stepCount_sub_one_le_iff (config_D_pos c)).mpr hreach)
  exact (Nat.pow_le_pow_right (by decide) hlast).trans hk.ge

/-- R60(c): with D = 2 the last period is W itself, and its group is half of it. -/
theorem two_pow_last_step_of_two_dims (w : Width) :
    2 ^ (stepCount w.bits 2 - 1) = w.bits / 2 := by
  obtain ⟨k, hk⟩ := exists_bits_eq_two_pow_succ w
  have hlast : stepCount w.bits 2 - 1 = k := by
    refine eq_of_forall_ge_iff fun s => ?_
    rw [stepCount_sub_one_le_iff (by decide), hk, ← pow_succ',
      Nat.pow_le_pow_iff_right (by decide), Nat.add_le_add_iff_right]
  rw [hlast, hk, pow_succ, Nat.mul_div_cancel _ (by decide)]

end Periods

/-- Settles O12. -/
theorem shiftAmountFormula : Obligations.ShiftAmountFormula :=
  ⟨fun _ _ _ => rfl, fun _ => Nat.zero_mul _, by decide⟩

/-- Settles O13: the period of step S − 2 lies below W, and no shift exceeds that of step S − 1. -/
theorem shiftAmountsStayBelowWidth : Obligations.ShiftAmountsStayBelowWidth := by
  intro c s hpos hs
  have hbefore : stepCount c.W c.D - 2 < stepCount c.W c.D - 1 := by omega
  have hperiod := (lt_stepCount_sub_one_iff (config_D_pos c)).mp hbefore
  have hlast : (c.D - 1) * 2 ^ (stepCount c.W c.D - 2) < c.W :=
    (Nat.mul_le_mul_right _ (Nat.sub_le _ _)).trans_lt hperiod
  refine ⟨lt_stepCount_sub_one_iff_ceilDiv.mp hbefore, hlast, ?_⟩
  calc shiftAmount c.D s = (c.D - 1) * 2 ^ (s - 1) := rfl
    _ ≤ (c.D - 1) * 2 ^ (stepCount c.W c.D - 2) :=
        Nat.mul_le_mul_left _ (Nat.pow_le_pow_right (by decide) (by omega))
    _ < c.W := hlast

end Sys2Proof.Machine
end

section
/-!
The mask builder (`40_constants.md` R58, R59): the bits of what it ORs together, and that on the
ones-mask of a step they are the bits of the step mask.
-/

namespace Sys2Proof.Machine

section Builder

variable {W : Nat} (p : Word W) (width : Nat)

/-- R58: `j` rounds OR the copies 0 to j. -/
theorem getLsbD_buildRounds_iff (j b : Nat) :
    (buildRounds p width j).getLsbD b = true ↔
      ∃ k, k ≤ j ∧ (shl p (k * width)).getLsbD b = true := by
  induction j with
  | zero => simpa [buildRounds] using p.lt_of_getLsbD
  | succ j ih =>
    simp only [buildRounds, BitVec.getLsbD_or, Bool.or_eq_true, ih, Nat.le_succ_iff, or_and_right,
      exists_or, exists_eq_left]

theorem getLsbD_shl_iff (n b : Nat) :
    (shl p n).getLsbD b = true ↔ b < W ∧ n ≤ b ∧ p.getLsbD (b - n) = true := by
  simp [and_assoc]

/-- R58: the copies below `r`, each cut off at W. -/
theorem getLsbD_build_iff {r : Nat} (hr : 0 < r) (b : Nat) :
    (build p width r).getLsbD b = true ↔
      b < W ∧ ∃ j, j < r ∧ j * width ≤ b ∧ p.getLsbD (b - j * width) = true := by
  simp only [build, getLsbD_buildRounds_iff, getLsbD_shl_iff, Nat.le_sub_one_iff_lt hr]
  exact ⟨fun ⟨j, hj, hb, hcopy⟩ => ⟨hb, j, hj, hcopy⟩,
    fun ⟨hb, j, hj, hcopy⟩ => ⟨j, hj, hb, hcopy⟩⟩

end Builder

section Copies

variable {W D s : Nat}

/-- A place of a set bit of `MASK[s]` lies in one of the copies that R59 asks for: that of its
period. -/
theorem maskBit_iff_exists_copy (hD : 0 < D) {b : Nat} (hb : b < W) :
    maskBit D s b = true ↔
      ∃ j, j < ceilDiv W (D * 2 ^ s) ∧ j * (D * 2 ^ s) ≤ b ∧ b - j * (D * 2 ^ s) < 2 ^ s := by
  have hgroup : 2 ^ s ≤ D * 2 ^ s := Nat.le_mul_of_pos_left _ hD
  have hperiod : 0 < D * 2 ^ s := (Nat.two_pow_pos s).trans_le hgroup
  constructor
  · intro hmask
    have hstart : D * 2 ^ s * (b / (D * 2 ^ s)) ≤ b := Nat.mul_div_le b _
    refine ⟨b / (D * 2 ^ s), (lt_ceilDiv_iff hperiod).mpr (hstart.trans_lt hb),
      Nat.div_mul_le_self b _, ?_⟩
    rw [Nat.mul_comm, ← Nat.mod_eq_sub]
    exact of_decide_eq_true hmask
  · rintro ⟨j, -, hle, hlow⟩
    have hplace := maskBit_group (D := D) j (hlow.trans_le hgroup)
    rwa [Nat.add_sub_cancel' hle, decide_eq_true hlow] at hplace

/-- R59: the copies of `ONES(2^s)`, one to a period, make `MASK[s]`. -/
theorem stepMaskBuilt_of_le (hD : 0 < D) (hs : 2 ^ s ≤ W) :
    stepMaskBuilt W D s = some (stepMask W D s) := by
  have hcopies : 0 < ceilDiv W (D * 2 ^ s) :=
    (lt_ceilDiv_iff (Nat.mul_pos hD (Nat.two_pow_pos s))).mpr ((Nat.two_pow_pos s).trans_le hs)
  rw [stepMaskBuilt, ones_of_le hs, Option.map_some]
  refine congrArg some (BitVec.eq_of_getLsbD_eq fun b hb => Bool.eq_iff_iff.mpr ?_)
  simp only [getLsbD_build_iff _ _ hcopies, getLsbD_two_pow_sub_one hs, decide_eq_true_eq,
    getLsbD_stepMask, Bool.and_eq_true, maskBit_iff_exists_copy hD hb]

end Copies

/-- Settles O8: `ONES(2^s)` is in its domain, and then the copies are the groups of the mask. -/
theorem builderGivesTheStepMasks : Obligations.BuilderGivesTheStepMasks :=
  ⟨fun c _ hs => ⟨two_pow_le_width hs, stepMaskBuilt_of_le (config_D_pos c) (two_pow_le_width hs)⟩,
    by decide⟩

end Sys2Proof.Machine
end

section
/-!
The step masks (`40_constants.md` R57, R60): their bits, their lowest group, the last mask, and
where the bits of coordinate 0 sit after a step.
-/

namespace Sys2Proof.Machine

section Masks

variable {W D s : Nat}

theorem maskBit_zero (D b : Nat) : maskBit D 0 b = decide (b % D = 0) := by
  simp [maskBit]

theorem maskBit_one_dim (s b : Nat) : maskBit 1 s b = true := by
  rw [maskBit, Nat.one_mul]
  exact decide_eq_true (Nat.mod_lt b (Nat.two_pow_pos s))

/-- R60(d): in the lowest period the bits below `2^s` are set. -/
theorem maskBit_of_lt {b : Nat} (hb : b < D * 2 ^ s) : maskBit D s b = decide (b < 2 ^ s) := by
  rw [maskBit, Nat.mod_eq_of_lt hb]

/-- R60(d): a period begins with a set bit. -/
theorem maskBit_period (D s : Nat) : maskBit D s (D * 2 ^ s) = true := by
  simp [maskBit]

/-- R60(b). -/
theorem ones_eq_stepMask_one_dim (W s : Nat) : ones W W = some (stepMask W 1 s) :=
  ones_eq_some_of_bits le_rfl fun i _ => by
    rw [getLsbD_stepMask, maskBit_one_dim, Bool.and_true]

/-- R60(c), (d): the period of the last step reaches W, so its mask has one group only. -/
theorem ones_eq_last_stepMask (c : Config) :
    ones c.W (2 ^ (stepCount c.W c.D - 1)) = some (stepMask c.W c.D (stepCount c.W c.D - 1)) :=
  ones_eq_some_of_bits (two_pow_le_width le_rfl) fun i hi => by
    have hreach := (stepCount_sub_one_le_iff (W := c.W) (config_D_pos c)).mp le_rfl
    rw [getLsbD_stepMask, maskBit_of_lt (hi.trans_le hreach), decide_eq_true hi, Bool.true_and]

/-- R60(c): with D = 2 the last mask is the lower half. -/
theorem ones_half_eq_last_stepMask (c : Config) (hD : c.D = 2) :
    ones c.W (c.W / 2) = some (stepMask c.W c.D (stepCount c.W c.D - 1)) := by
  have hhalf : 2 ^ (stepCount c.W c.D - 1) = c.W / 2 := hD ▸ two_pow_last_step_of_two_dims c.width
  rw [← hhalf, ones_eq_last_stepMask]

/-- R60(d). -/
theorem stepMask_lowest_group (hD : 0 < D) (hs : 2 ^ s ≤ W) :
    (∀ b, b < 2 ^ s → (stepMask W D s).getLsbD b = true) ∧
    (∀ b, 2 ^ s ≤ b → b < D * 2 ^ s → (stepMask W D s).getLsbD b = false) ∧
    (D * 2 ^ s < W → (stepMask W D s).getLsbD (D * 2 ^ s) = true) := by
  refine ⟨fun b hb => ?_, fun b hgap hb => ?_, fun hnext => ?_⟩
  · have hperiod : b < D * 2 ^ s := hb.trans_le (Nat.le_mul_of_pos_left _ hD)
    rw [getLsbD_stepMask, maskBit_of_lt hperiod, decide_eq_true hb,
      decide_eq_true (hb.trans_le hs), Bool.and_self]
  · rw [getLsbD_stepMask, maskBit_of_lt hb, decide_eq_false hgap.not_gt, Bool.and_false]
  · rw [getLsbD_stepMask, maskBit_period, decide_eq_true hnext, Bool.and_self]

end Masks

section Places

variable {W D : Nat} (s : Nat) {i : Nat}

/-- R60(e): where bit i of coordinate 0 sits after step s. -/
def bitPlace (D s i : Nat) : Nat :=
  i / 2 ^ s * (D * 2 ^ s) + i % 2 ^ s

theorem mod_two_pow_lt_period (hD : 0 < D) (i : Nat) : i % 2 ^ s < D * 2 ^ s :=
  (Nat.mod_lt i (Nat.two_pow_pos s)).trans_le (Nat.le_mul_of_pos_left _ hD)

theorem bitPlace_div (hD : 0 < D) (i : Nat) : bitPlace D s i / (D * 2 ^ s) = i / 2 ^ s := by
  have hoffset := mod_two_pow_lt_period s hD i
  rw [bitPlace, Nat.add_comm, Nat.add_mul_div_right _ _ (Nat.zero_lt_of_lt hoffset),
    Nat.div_eq_of_lt hoffset, Nat.zero_add]

theorem bitPlace_mod (hD : 0 < D) (i : Nat) : bitPlace D s i % (D * 2 ^ s) = i % 2 ^ s := by
  rw [bitPlace, Nat.mul_add_mod_self_right, Nat.mod_eq_of_lt (mod_two_pow_lt_period s hD i)]

/-- The period and the offset of a place give the bit back. -/
theorem bitPlace_injective (hD : 0 < D) : Function.Injective (bitPlace D s) := by
  intro i j heq
  rw [← Nat.div_add_mod i (2 ^ s), ← bitPlace_div s hD, ← bitPlace_mod s hD i, heq,
    bitPlace_div s hD, bitPlace_mod s hD, Nat.div_add_mod]

/-- A place lies at or below the bit's own place in the code. -/
theorem bitPlace_le_mul (hD : 0 < D) (i : Nat) : bitPlace D s i ≤ D * i := by
  calc bitPlace D s i ≤ i / 2 ^ s * (D * 2 ^ s) + D * (i % 2 ^ s) :=
        Nat.add_le_add_left (Nat.le_mul_of_pos_left _ hD) _
    _ = D * (i / 2 ^ s * 2 ^ s + i % 2 ^ s) := by ring
    _ = D * i := by rw [Nat.div_add_mod']

theorem bitPlace_lt (hD : 0 < D) (hi : i < ceilDiv W D) : bitPlace D s i < W :=
  (bitPlace_le_mul s hD i).trans_lt ((lt_ceilDiv_iff hD).mp hi)

theorem getLsbD_stepMask_bitPlace (hD : 0 < D) (hi : i < ceilDiv W D) :
    (stepMask W D s).getLsbD (bitPlace D s i) = true := by
  have hset : maskBit D s (bitPlace D s i) = decide (i % 2 ^ s < 2 ^ s) :=
    maskBit_group _ (mod_two_pow_lt_period s hD i)
  rw [getLsbD_stepMask, hset, decide_eq_true (bitPlace_lt s hD hi),
    decide_eq_true (Nat.mod_lt i (Nat.two_pow_pos s)), Bool.and_self]

/-- R60(e) from R73. -/
theorem getLsbD_afterStep_bitPlace (hD : 0 < D) (x : Word W) (i : Nat) :
    (afterStep W D s x).getLsbD (bitPlace D s i) = x.getLsbD (i * D) := by
  have hplace := afterStep_grouped x hD s (i / 2 ^ s) _ (mod_two_pow_lt_period s hD i)
  rwa [decide_eq_true (Nat.mod_lt i (Nat.two_pow_pos s)), Bool.true_and, Nat.div_add_mod']
    at hplace

/-- R60(e): the places of the bits of coordinate 0 are so many distinct set bits of the mask. -/
theorem ceilDiv_le_count_stepMask (hD : 0 < D) :
    ceilDiv W D ≤ ((List.range W).filter fun b => (stepMask W D s).getLsbD b).length := by
  have hdistinct : ((List.range (ceilDiv W D)).map (bitPlace D s)).Nodup :=
    List.nodup_range.map (bitPlace_injective s hD)
  have hset : (List.range (ceilDiv W D)).map (bitPlace D s) ⊆
      (List.range W).filter fun b => (stepMask W D s).getLsbD b := by
    intro p hp
    obtain ⟨i, hi, rfl⟩ := List.mem_map.mp hp
    have hbit := List.mem_range.mp hi
    exact List.mem_filter.mpr
      ⟨List.mem_range.mpr (bitPlace_lt s hD hbit), getLsbD_stepMask_bitPlace s hD hbit⟩
  simpa using (List.subperm_of_subset hdistinct hset).length_le

end Places

/-- Settles O6. -/
theorem stepMaskBits : Obligations.StepMaskBits :=
  ⟨getLsbD_stepMask, by decide⟩

/-- Settles O9, a property of R60 at a time. -/
theorem stepMaskProperties : Obligations.StepMaskProperties := by
  refine ⟨fun c => ?_, by decide⟩
  have hD := config_D_pos c
  have hfirst : ∀ b, (stepMask c.W c.D 0).getLsbD b =
      (decide (b < c.W) && decide (b % c.D = 0)) := fun b => by
    rw [getLsbD_stepMask, maskBit_zero]
  refine ⟨hfirst, fun hone s => ?_, fun htwo => ⟨fun b => ?_, ones_half_eq_last_stepMask c htwo⟩,
    fun s hs => stepMask_lowest_group hD (two_pow_le_width hs), fun s _ => ?_⟩
  · exact hone ▸ ones_eq_stepMask_one_dim c.W s
  · rw [hfirst, htwo]
  · exact ⟨ceilDiv_le_count_stepMask s hD, fun _ _ heq => bitPlace_injective s hD heq,
      fun i hi => ⟨getLsbD_stepMask_bitPlace s hD hi,
        fun x => getLsbD_afterStep_bitPlace s hD x i⟩⟩

end Sys2Proof.Machine
end

section
/-!
`DEINT` as a number and with other step counts (`41_deinterleave.md` R73 to R75, R82).
-/

namespace Sys2Proof.Machine

section ClosedForm

variable {W : Nat}

/-- A Word lies below `2^n` exactly when it has no bit from n up. -/
theorem toNat_lt_two_pow_iff (x : Word W) (n : Nat) :
    x.toNat < 2 ^ n ↔ ∀ i, n ≤ i → x.getLsbD i = false := by
  simp only [← BitVec.testBit_toNat]
  exact ⟨fun hx i hi => Nat.testBit_lt_two_pow (hx.trans_le (Nat.pow_le_pow_right two_pos hi)),
    Nat.lt_pow_two_of_testBit _⟩

/-- The low n bits of a Word as a sum, in which the places outside `p` may be left out where they
hold no bit. -/
theorem sum_bits_eq_mod_two_pow {x : Word W} {p c : Nat → Bool}
    (hx : ∀ i, x.getLsbD i = (p i && c i)) (n : Nat) :
    (((List.range n).filter p).map fun i => (c i).toNat * 2 ^ i).sum = x.toNat % 2 ^ n := by
  induction n with
  | zero => simp [Nat.mod_one]
  | succ n ih =>
    have hbit : x.toNat / 2 ^ n % 2 = (p n && c n).toNat := by
      rw [← hx, ← BitVec.testBit_toNat, Nat.toNat_testBit]
    rw [List.range_succ, List.filter_append, List.map_append, List.sum_append, ih,
      Nat.mod_pow_succ, hbit]
    cases hp : p n <;> simp [hp, Nat.mul_comm]

variable {D : Nat} (x : Word W)

/-- R74 as a sum. -/
theorem toNat_deint (hD : 0 < D) : (deint W D x).toNat = deintSum W D x := by
  have hbits (i : Nat) :
      (deint W D x).getLsbD i = (decide (i * D < W) && x.getLsbD (i * D)) := by
    rw [getLsbD_deint x hD]
    by_cases hi : i * D < W
    · simp [hi]
    · simp [BitVec.getLsbD_of_ge x _ (Nat.le_of_not_lt hi)]
  rw [deintSum, sum_bits_eq_mod_two_pow hbits, Nat.mod_eq_of_lt (deint W D x).isLt]

theorem toNat_deint_lt (hD : 0 < D) : (deint W D x).toNat < 2 ^ ceilDiv W D := by
  refine (toNat_lt_two_pow_iff _ _).mpr fun i hi => ?_
  rw [getLsbD_deint x hD]
  exact BitVec.getLsbD_of_ge x _ (Nat.mul_comm D i ▸ (ceilDiv_le_iff hD).mp hi)

end ClosedForm

/-- Settles O14: a position is its period and its offset in it, for which R73 is
`afterStep_grouped`. -/
theorem stepInvariant : Obligations.StepInvariant := by
  intro W D s x hD p hp
  have hoffset := Nat.mod_lt p (Nat.mul_pos hD (Nat.two_pow_pos s))
  have hmask : (stepMask W D s).getLsbD p = decide (p % (D * 2 ^ s) < 2 ^ s) := by
    rw [getLsbD_stepMask, decide_eq_true hp, Bool.true_and, maskBit]
  have hplace := afterStep_grouped x hD s (p / (D * 2 ^ s)) _ hoffset
  rw [Nat.div_add_mod'] at hplace
  rw [hmask, hplace]
  exact ⟨fun hlow => by simp [hlow], fun hgap => by simp [hgap]⟩

/-- Settles O15, from the bits of `DEINT`. -/
theorem deintClosedForm : Obligations.DeintClosedForm := by
  intro c x
  have hD := config_D_pos c
  refine ⟨toNat_deint x hD, fun i _ => getLsbD_deint x hD i, fun i hi => ?_, toNat_deint_lt x hD⟩
  rw [getLsbD_deint x hD, BitVec.getLsbD_of_ge x _ hi]

section StepCounts

variable {W D : Nat} (x : Word W)

/-- R75: extra steps change nothing. -/
theorem afterStep_eq_deint (hD : 0 < D) {s : Nat} (hs : stepCount W D - 1 ≤ s) :
    afterStep W D s x = deint W D x := by
  apply BitVec.eq_of_getLsbD_eq
  intro i _
  rw [getLsbD_afterStep_of_fits x hD (clog2_le_iff.mp hs), getLsbD_deint x hD]

/-- R82: in one dimension every bit stays where it is. -/
theorem afterStep_one_dim (s : Nat) : afterStep W 1 s x = x := by
  apply BitVec.eq_of_getLsbD_eq
  intro i _
  have hplace : bitPlace 1 s i = i := by rw [bitPlace, Nat.one_mul, Nat.div_add_mod']
  have hbit := getLsbD_afterStep_bitPlace s one_pos x i
  rwa [hplace, Nat.mul_one] at hbit

theorem deint_one_dim : deint W 1 x = x :=
  afterStep_one_dim x _

/-- After step s the bits of coordinate 0 below `2^s` have arrived, and bit `2^s` still stands one
period up. -/
theorem getLsbD_afterStep_period (hD : 0 < D) (s : Nat) :
    (afterStep W D s x).getLsbD (D * 2 ^ s) = x.getLsbD (D * 2 ^ s) := by
  have hplace : bitPlace D s (2 ^ s) = D * 2 ^ s := by
    simp [bitPlace, Nat.div_self (Nat.two_pow_pos s)]
  have hbit := getLsbD_afterStep_bitPlace s hD x (2 ^ s)
  rwa [hplace, Nat.mul_comm (2 ^ s)] at hbit

/-- With two dimensions or more a gap begins at bit `2^s`. -/
theorem getLsbD_afterStep_gap (hD : 2 ≤ D) (s : Nat) :
    (afterStep W D s x).getLsbD (2 ^ s) = false := by
  have hgap : 2 ^ s < D * 2 ^ s := lt_mul_of_one_lt_left (Nat.two_pow_pos s) hD
  simpa using afterStep_grouped x (two_pos.trans_le hD) s 0 (2 ^ s) hgap

theorem getLsbD_shl_one_self {n : Nat} (hn : n < W) : (shl 1#W n).getLsbD n = true := by
  simp [hn, Nat.zero_lt_of_lt hn]

/-- R75: the counterexample for too few steps, bit by bit. -/
theorem missing_step_counterexample (hD : 2 ≤ D) {s : Nat} (hs : s < stepCount W D - 1) :
    (afterStep W D s (shl 1#W (D * 2 ^ s))).getLsbD (D * 2 ^ s) = true ∧
    (afterStep W D s (shl 1#W (D * 2 ^ s))).getLsbD (2 ^ s) = false ∧
    (deint W D (shl 1#W (D * 2 ^ s))).getLsbD (2 ^ s) = true := by
  have hpos : 0 < D := two_pos.trans_le hD
  have hset := getLsbD_shl_one_self ((lt_stepCount_sub_one_iff hpos).mp hs)
  refine ⟨?_, getLsbD_afterStep_gap _ hD s, ?_⟩
  · rw [getLsbD_afterStep_period _ hpos, hset]
  · rw [getLsbD_deint _ hpos, Nat.mul_comm (2 ^ s), hset]

theorem afterStep_ne_deint (hD : 2 ≤ D) {s : Nat} (hs : s < stepCount W D - 1) :
    afterStep W D s (shl 1#W (D * 2 ^ s)) ≠ deint W D (shl 1#W (D * 2 ^ s)) := by
  obtain ⟨-, hgap, hset⟩ := missing_step_counterexample hD hs
  intro heq
  rw [heq, hset] at hgap
  contradiction

end StepCounts

section OtherCounts

theorem two_le_of_not_isPowerOfTwo {D : Nat} (hD : 0 < D) (h : ¬ IsPowerOfTwo D) : 2 ≤ D := by
  have hone : D ≠ 1 := fun hD => h ⟨0, hD⟩
  omega

variable (c : Config)

theorem stepCount_one_dim (w : Width) : stepCount w.bits 1 = Nat.log2 w.bits + 1 := by
  obtain ⟨k, hk⟩ := exists_bits_eq_two_pow_succ w
  have hlast : stepCount w.bits 1 - 1 = k + 1 := eq_of_forall_ge_iff fun s => by
    rw [stepCount_sub_one_le_iff one_pos, hk, Nat.one_mul, Nat.pow_le_pow_iff_right one_lt_two]
  calc stepCount w.bits 1 = stepCount w.bits 1 - 1 + 1 := rfl
    _ = Nat.log2 w.bits + 1 := by rw [hlast, hk, Nat.log2_two_pow]

/-- R75: the original code's count is that of D = 2, the largest with two dimensions or more. -/
theorem stepCount_le_originalStepCount (hD : 2 ≤ c.D) :
    stepCount c.W c.D ≤ originalStepCount c.W := by
  obtain ⟨k, hk : c.W = 2 ^ (k + 1)⟩ := exists_bits_eq_two_pow_succ c.width
  have hlog : Nat.log2 (c.W / 2) = k := by
    rw [hk, pow_succ, Nat.mul_div_cancel _ two_pos, Nat.log2_two_pow]
  have hreach : c.W ≤ c.D * 2 ^ k := by
    rw [hk, pow_succ']
    exact Nat.mul_le_mul_right _ hD
  rw [originalStepCount, hlog]
  exact Nat.sub_le_iff_le_add.mp ((stepCount_sub_one_le_iff (config_D_pos c)).mpr hreach)

theorem afterStep_originalStepCount (x : Word c.W) :
    afterStep c.W c.D (originalStepCount c.W - 1) x = deint c.W c.D x := by
  rcases Nat.eq_or_lt_of_le (config_D_pos c) with hone | hmany
  · rw [← hone, afterStep_one_dim, deint_one_dim]
  · exact afterStep_eq_deint x (config_D_pos c)
      (Nat.sub_le_sub_right (stepCount_le_originalStepCount c hmany) 1)

/-- R63, R75: the literal falls short unless D is a power of two, because the period it stops at
divides W only then. -/
theorem literal_lt_stepCount_sub_one (hD : ¬ IsPowerOfTwo c.D) :
    literalStepCount c.W c.D - 1 < stepCount c.W c.D - 1 := by
  obtain ⟨k, hk : c.W = 2 ^ (k + 1)⟩ := exists_bits_eq_two_pow_succ c.width
  have hquot : c.W / c.D ≠ 0 := (Nat.div_pos (config_D_le_W c) (config_D_pos c)).ne'
  have hle : c.D * 2 ^ Nat.log2 (c.W / c.D) ≤ c.W :=
    (Nat.mul_le_mul_left _ (Nat.log2_self_le hquot)).trans (Nat.mul_div_le _ _)
  have hne : c.D * 2 ^ Nat.log2 (c.W / c.D) ≠ c.W := fun heq => hD <| by
    obtain ⟨d, -, hd⟩ := (Nat.dvd_prime_pow Nat.prime_two).mp (hk ▸ Dvd.intro _ heq)
    exact ⟨d, hd⟩
  exact (lt_stepCount_sub_one_iff (config_D_pos c)).mpr (hle.lt_of_ne hne)

end OtherCounts

/-- Settles O16, a clause of R75 at a time. -/
theorem extraStepsHarmlessMissingStepsWrong :
    Obligations.ExtraStepsHarmlessMissingStepsWrong := by
  intro c
  refine ⟨fun S' x hS => afterStep_eq_deint x (config_D_pos c) (Nat.sub_le_sub_right hS 1),
    fun hone S' x _ => ?_, fun hD S' hpos hS => ?_, stepCount_le_originalStepCount c,
    afterStep_originalStepCount c, fun hD => ?_⟩
  · rw [hone]
    exact ⟨afterStep_one_dim x _, deint_one_dim x⟩
  · have hmissing : S' - 1 < stepCount c.W c.D - 1 := by omega
    exact ⟨lt_stepCount_sub_one_iff_ceilDiv.mp hmissing, afterStep_ne_deint hD hmissing,
      missing_step_counterexample hD hmissing⟩
  · exact ⟨_, afterStep_ne_deint (two_le_of_not_isPowerOfTwo (config_D_pos c) hD)
      (literal_lt_stepCount_sub_one c hD)⟩

end Sys2Proof.Machine
end

section
/-!
The lanes of `DECODE_ALL` bit by bit (`41_deinterleave.md` R78 to R84): bit i of lane k is code bit
i·D + k, and L_k is the number of places i·D + k below W.
-/

namespace Sys2Proof.Machine

section Shifts

variable {W : Nat} (x : Word W)

theorem shr_zero : shr x 0 = x :=
  BitVec.ushiftRight_zero x

theorem shr_shr (m n : Nat) : shr (shr x m) n = shr x (m + n) :=
  (BitVec.shiftRight_add x m n).symm

theorem zero_shr (n : Nat) : shr 0#W n = 0#W :=
  BitVec.zero_ushiftRight

/-- R78: the working copy has been shifted k times when lane k is taken from it. -/
theorem workingCopyLanes_eq (D : Nat) (w : Word W) (n : Nat) :
    workingCopyLanes W D w n = (List.range n).map fun k => deint W D (shr w k) := by
  induction n generalizing w with
  | zero => rfl
  | succ n ih =>
    simp only [workingCopyLanes, ih, shr_shr, List.range_succ_eq_map, List.map_cons, List.map_map,
      Function.comp_def, shr_zero, Nat.succ_eq_add_one, Nat.add_comm 1]

end Shifts

/-- Settles O19, by the loop's closed form and one lane of each operation. -/
theorem workingCopyLoopGivesTheSameLanes : Obligations.WorkingCopyLoopGivesTheSameLanes := by
  intro c code _
  refine ⟨workingCopyLanes_eq c.D _ c.D, fun k => shr_shr _ k 1, fun k hk => ?_⟩
  rw [lane_zero_decodeOne, lane_decodeAll c code hk, toWord_ofWord (config_W_le_64 c)]

/-- Settles O22: `DECODE_ALL` shifts the code by 0 for lane 0. -/
theorem bothOperationsAgreeOnLaneZero : Obligations.BothOperationsAgreeOnLaneZero := fun c code =>
  ⟨_, lane_zero_decodeOne c code, by rw [lane_decodeAll c code (config_D_pos c), shr_zero]⟩

/-- Settles O23, from the step algorithm in one dimension. -/
theorem oneDimensionIsTheIdentity : Obligations.OneDimensionIsTheIdentity := by
  intro c hone
  refine ⟨?_, fun s => ?_, fun s => ?_, fun x => ?_, fun code hcode => ?_⟩
  · rw [hone, stepCount_one_dim]
  · rw [hone, ← ones_eq_stepMask_one_dim]
  · rw [hone, shiftAmount, Nat.sub_self, Nat.zero_mul]
  · rw [hone, deint_one_dim]
  · rw [coord_decodeAll, hone, List.range_one, List.map_singleton, shr_zero, deint_one_dim,
      ofWord_toWord code hcode]

theorem deint_zero {W D : Nat} (hD : 0 < D) : deint W D 0#W = 0#W := by
  apply BitVec.eq_of_getLsbD_eq
  intro i _
  rw [getLsbD_deint _ hD, BitVec.getLsbD_zero, BitVec.getLsbD_zero]

/-- Settles O24: a shifted 0 is 0, and so is its `DEINT`. -/
theorem zeroCodeGivesZeroLanes : Obligations.ZeroCodeGivesZeroLanes := by
  intro c
  have hD := config_D_pos c
  have htoWord : toWord c.W 0#64 = 0#c.W := BitVec.setWidth_zero ..
  have hofWord : ofWord 0#c.W = 0#64 := BitVec.setWidth_zero ..
  constructor
  · simp only [coord_decodeAll, htoWord, zero_shr, deint_zero hD, hofWord, List.map_const',
      List.length_range]
  · rw [coord_decodeOne, htoWord, deint_zero hD, hofWord, ← List.replicate_succ,
      Nat.sub_add_cancel hD]

section CoordWidth

variable {W D k : Nat}

/-- R79: the bits of coordinate k that have a place in the code are the first L_k. -/
theorem lt_coordWidth_iff (hD : 0 < D) {i : Nat} : i < coordWidth W D k ↔ i * D + k < W := by
  rw [coordWidth, lt_ceilDiv_iff hD, Nat.lt_sub_iff_add_lt, Nat.mul_comm]

theorem coordWidth_le (hD : 0 < D) : coordWidth W D k ≤ W :=
  (ceilDiv_le_iff hD).mpr ((Nat.sub_le W k).trans (Nat.le_mul_of_pos_left W hD))

/-- R79: with `W = q·D + r` the coordinates below r hold one bit more than the others. -/
theorem coordWidth_eq (hk : k < D) :
    coordWidth W D k = W / D + if k < W % D then 1 else 0 := by
  have hW : W / D * D + W % D = W := Nat.div_add_mod' W D
  have hmod := Nat.mod_lt W (Nat.zero_lt_of_lt hk)
  refine eq_of_forall_lt_iff fun i => ?_
  rw [lt_coordWidth_iff (Nat.zero_lt_of_lt hk)]
  rcases Nat.lt_trichotomy i (W / D) with hlt | heq | hgt
  · have hbelow := Nat.mul_le_mul_right D (Nat.succ_le_of_lt hlt)
    rw [Nat.succ_mul] at hbelow
    split_ifs <;> omega
  · rw [heq]
    split_ifs <;> omega
  · have habove := Nat.mul_le_mul_right D (Nat.succ_le_of_lt hgt)
    rw [Nat.succ_mul] at habove
    split_ifs <;> omega

theorem coordWidth_of_dvd (hk : k < D) (hdvd : W % D = 0) : coordWidth W D k = W / D := by
  rw [coordWidth_eq hk, hdvd, if_neg (Nat.not_lt_zero k), Nat.add_zero]

end CoordWidth

section LaneBits

variable {c : Config} {code : Bus} {k : Nat}

theorem lt_dims_of_lane {i : Instr} {v : Bus} (hv : (respond c i).lane k = some v) : k < c.D := by
  obtain ⟨hk, -⟩ := List.getElem?_eq_some_iff.mp hv
  rwa [length_respond_coord] at hk

/-- R80: the bits of a lane of `DECODE_ALL`. -/
theorem getLsbD_lane_decodeAll {v : Bus} (hv : (respond c (.decodeAll code)).lane k = some v)
    (i : Nat) : v.getLsbD i = (decide (i * c.D + k < c.W) && code.getLsbD (i * c.D + k)) := by
  have hD := config_D_pos c
  rw [lane_decodeAll c code (lt_dims_of_lane hv), Option.some_inj] at hv
  rw [← hv, getLsbD_ofWord, getLsbD_deint _ hD, getLsbD_shr, getLsbD_toWord, Nat.add_comm k]
  have hbus : i * c.D + k < c.W → i < 64 := fun hi =>
    ((Nat.le_mul_of_pos_right i hD).trans (Nat.le_add_right _ k)).trans_lt
      (hi.trans_le (config_W_le_64 c))
  by_cases hi : i * c.D + k < c.W
  · simp [hi, hbus hi]
  · simp [hi]

/-- R79: a lane of `DECODE_ALL` lies below `2^L_k`. -/
theorem lane_decodeAll_lt {v : Bus} (hv : (respond c (.decodeAll code)).lane k = some v) :
    v.toNat < 2 ^ coordWidth c.W c.D k := by
  refine (toNat_lt_two_pow_iff v _).mpr fun i hi => ?_
  have hplace : ¬ i * c.D + k < c.W := (lt_coordWidth_iff (config_D_pos c)).not.mp hi.not_gt
  rw [getLsbD_lane_decodeAll hv, decide_eq_false hplace, Bool.false_and]

/-- R84: `ONES(W)` has a bit at every place of coordinate k. -/
theorem ones_coordWidth_of_ones (hcode : ones c.W c.W = some (toWord c.W code)) (k : Nat) :
    ones c.W (coordWidth c.W c.D k) = some (deint c.W c.D (shr (toWord c.W code) k)) := by
  have hD := config_D_pos c
  refine ones_eq_some_of_bits (coordWidth_le hD) fun i _ => ?_
  rw [ones_of_le le_rfl, Option.some_inj] at hcode
  rw [getLsbD_deint _ hD, getLsbD_shr, ← hcode, getLsbD_two_pow_sub_one le_rfl, decide_eq_decide,
    lt_coordWidth_iff hD, Nat.add_comm]

end LaneBits

/-- Settles O20, from the places of a coordinate in the code. -/
theorem coordinateWidths : Obligations.CoordinateWidths := by
  refine ⟨fun c k hk => ⟨coordWidth_eq hk, fun i => (lt_coordWidth_iff (config_D_pos c)).symm,
    coordWidth_of_dvd hk, fun code v hv => ?_⟩, by decide⟩
  have hlt := lane_decodeAll_lt hv
  exact ⟨hlt, (toNat_lt_two_pow_iff v _).mp hlt⟩

/-- Settles O21, from the bits of a lane. -/
theorem decodeAllClosedForm : Obligations.DecodeAllClosedForm := by
  intro c code _ k hk
  have hlane := lane_decodeAll c code hk
  refine ⟨deint_shr_eq_coordinate _ (config_D_pos c) k, _, hlane, fun i => ⟨fun hi => ?_,
    fun hi => ?_⟩⟩
  · rw [getLsbD_lane_decodeAll hlane, decide_eq_true hi, Bool.true_and]
  · rw [getLsbD_lane_decodeAll hlane, decide_eq_false hi.not_gt, Bool.false_and]

/-- Settles O25: a lane of the all-ones code has a bit at every place of its coordinate. -/
theorem allOnesCodeGivesOnesLanes : Obligations.AllOnesCodeGivesOnesLanes := by
  refine ⟨fun c code hcode k hk => ⟨_, _, ones_coordWidth_of_ones hcode k,
    lane_decodeAll c code hk, rfl, coordWidth_of_dvd hk, fun _ => ?_⟩, fun c hW hD => ?_⟩
  · rw [coordWidth_eq hk]
    split_ifs <;> rfl
  · rw [coord_decodeAll, hW, hD]
    decide

end Sys2Proof.Machine
end

section
/-!
The test-only interleave (`41_deinterleave.md` R85): bit b of a code is bit b / D of coordinate
b mod D, so interleaving and `DECODE_ALL` undo each other.
-/

namespace Sys2Proof.Machine

section Interleave

variable {W D : Nat}

/-- A bit of Words ORed together one after the other. -/
theorem getLsbD_foldl_or_iff {α : Type} (f : α → Word W) (l : List α) (acc : Word W) (b : Nat) :
    (l.foldl (fun a x => a ||| f x) acc).getLsbD b = true ↔
      acc.getLsbD b = true ∨ ∃ x ∈ l, (f x).getLsbD b = true := by
  induction l generalizing acc with
  | nil => simp
  | cons x l ih => simp [ih, or_assoc]

theorem mem_codePlaces_iff (hD : 0 < D) {k i : Nat} :
    (k, i) ∈ codePlaces W D ↔ k < D ∧ i * D + k < W := by
  have hle : i ≤ i * D := Nat.le_mul_of_pos_right i hD
  simp only [codePlaces, List.mem_filter, List.mem_flatMap, List.mem_map, List.mem_range,
    Prod.mk.injEq, decide_eq_true_eq]
  constructor
  · rintro ⟨⟨_, hk, _, -, rfl, -⟩, hplace⟩
    exact ⟨hk, hplace⟩
  · rintro ⟨hk, hplace⟩
    exact ⟨⟨k, hk, i, by omega, rfl, rfl⟩, hplace⟩

/-- A single bit shifted to its place. -/
theorem getLsbD_shl_bit_iff {n b : Nat} (hn : n < W) (bit : Bool) :
    (shl (BitVec.ofNat W bit.toNat) n).getLsbD b = true ↔ b = n ∧ bit = true := by
  rw [getLsbD_shl_iff]
  cases bit with
  | false => simp
  | true =>
    simp only [Bool.toNat_true, BitVec.getLsbD_one, Bool.and_eq_true, decide_eq_true_eq, and_true]
    omega

/-- A place of the code is that of one bit of one coordinate. -/
theorem place_inj {k k' i i' : Nat} (hk : k < D) (hk' : k' < D)
    (heq : i * D + k = i' * D + k') : k = k' ∧ i = i' := by
  have hD := Nat.zero_lt_of_lt hk
  have hmod := congrArg (· % D) heq
  have hdiv := congrArg (· / D) heq
  simp only [Nat.mul_add_mod_self_right, Nat.mod_eq_of_lt hk, Nat.mod_eq_of_lt hk'] at hmod
  simp only [Nat.add_comm _ k, Nat.add_comm _ k', Nat.add_mul_div_right _ _ hD,
    Nat.div_eq_of_lt hk, Nat.div_eq_of_lt hk', Nat.zero_add] at hdiv
  exact ⟨hmod, hdiv⟩

/-- R85: bit i·D + k of the interleave is bit i of coordinate k. -/
theorem getLsbD_interleave (cs : List Bus) {k i : Nat} (hk : k < D) (hplace : i * D + k < W) :
    (interleave W D cs).getLsbD (i * D + k) = tupleBit cs k i := by
  have hD := Nat.zero_lt_of_lt hk
  rw [Bool.eq_iff_iff, interleave, getLsbD_foldl_or_iff, BitVec.getLsbD_zero]
  constructor
  · rintro (hzero | ⟨⟨k', i'⟩, hmem, hbit⟩)
    · contradiction
    · obtain ⟨hk', hplace'⟩ := (mem_codePlaces_iff hD).mp hmem
      obtain ⟨heq, hset⟩ := (getLsbD_shl_bit_iff hplace' _).mp hbit
      obtain ⟨rfl, rfl⟩ := place_inj hk hk' heq
      exact hset
  · intro hset
    exact .inr ⟨(k, i), (mem_codePlaces_iff hD).mpr ⟨hk, hplace⟩,
      (getLsbD_shl_bit_iff hplace _).mpr ⟨rfl, hset⟩⟩

/-- Two codes with the same bits of all coordinates are the same. -/
theorem eq_of_getLsbD_place {x y : Word W} (hD : 0 < D)
    (h : ∀ k i, k < D → i * D + k < W → x.getLsbD (i * D + k) = y.getLsbD (i * D + k)) :
    x = y := by
  apply BitVec.eq_of_getLsbD_eq
  intro b hb
  have hplace := h (b % D) (b / D) (Nat.mod_lt b hD)
  rw [Nat.div_add_mod'] at hplace
  exact hplace hb

/-- R85(b): bits of a coordinate at L_k and above have no place in the code. -/
theorem interleave_congr (hD : 0 < D) {cs ds : List Bus}
    (h : ∀ k i, k < D → i < coordWidth W D k → tupleBit cs k i = tupleBit ds k i) :
    interleave W D cs = interleave W D ds := by
  refine eq_of_getLsbD_place hD fun k i hk hplace => ?_
  rw [getLsbD_interleave cs hk hplace, getLsbD_interleave ds hk hplace]
  exact h k i hk ((lt_coordWidth_iff hD).mpr hplace)

end Interleave

section RoundTrip

/-- The tuples of R85: D coordinates, each within its width. -/
def FitsCoordinates (c : Config) (cs : List Bus) : Prop :=
  cs.length = c.D ∧ ∀ k v, cs[k]? = some v → v.toNat < 2 ^ coordWidth c.W c.D k

variable {c : Config}

theorem respond_fitsCoordinates (code : Bus) :
    FitsCoordinates c (respond c (.decodeAll code)).coord :=
  ⟨length_respond_coord c _, fun _ _ => lane_decodeAll_lt⟩

theorem tupleBit_of_getElem? {cs : List Bus} {k : Nat} {v : Bus} (hv : cs[k]? = some v) (i : Nat) :
    tupleBit cs k i = v.getLsbD i := by
  rw [tupleBit, List.getD_eq_getElem?_getD, hv, Option.getD_some]

/-- R85: interleaving what `DECODE_ALL` gives of a code gives the code. -/
theorem interleave_respond (code : Bus) :
    interleave c.W c.D (respond c (.decodeAll code)).coord = toWord c.W code := by
  refine eq_of_getLsbD_place (config_D_pos c) fun k i hk hplace => ?_
  have hlane := lane_decodeAll c code hk
  rw [getLsbD_interleave _ hk hplace, tupleBit_of_getElem? hlane, getLsbD_lane_decodeAll hlane,
    getLsbD_toWord]

/-- R85(a): `DECODE_ALL` gives a fitting tuple back of its interleave. -/
theorem respond_interleave {cs : List Bus} (hcs : FitsCoordinates c cs) :
    (respond c (.decodeAll (ofWord (interleave c.W c.D cs)))).coord = cs := by
  obtain ⟨hlen, hfits⟩ := hcs
  refine List.ext_getElem (by rw [length_respond_coord, hlen]) fun k hk hk' => ?_
  have hlane := List.getElem?_eq_getElem hk
  have hcoord := List.getElem?_eq_getElem hk'
  apply BitVec.eq_of_getLsbD_eq
  intro i _
  rw [getLsbD_lane_decodeAll hlane, getLsbD_ofWord, ← tupleBit_of_getElem? hcoord]
  by_cases hplace : i * c.D + k < c.W
  · rw [getLsbD_interleave cs (hlen ▸ hk') hplace, decide_eq_true hplace,
      decide_eq_true (hplace.trans_le (config_W_le_64 c)), Bool.true_and, Bool.true_and]
  · have hlost : coordWidth c.W c.D k ≤ i :=
      Nat.le_of_not_lt ((lt_coordWidth_iff (config_D_pos c)).not.mpr hplace)
    rw [decide_eq_false hplace, Bool.false_and, tupleBit_of_getElem? hcoord,
      (toNat_lt_two_pow_iff _ _).mp (hfits k _ hcoord) i hlost]

/-- A W-bit code is determined by its lanes, since its interleave gives it back. -/
theorem respond_decodeAll_injective {a b : Bus} (ha : a.toNat < 2 ^ c.W) (hb : b.toNat < 2 ^ c.W)
    (hlanes : (respond c (.decodeAll a)).coord = (respond c (.decodeAll b)).coord) : a = b := by
  rw [← ofWord_toWord a ha, ← ofWord_toWord b hb, ← interleave_respond, hlanes, interleave_respond]

end RoundTrip

/-- Settles O26: `DECODE_ALL` and the interleave are inverse to each other. -/
theorem roundTrip : Obligations.RoundTrip := by
  intro c
  exact ⟨fun cs => respond_interleave,
    fun code _ => ⟨interleave_respond code, respond_fitsCoordinates code⟩,
    fun a b => respond_decodeAll_injective,
    fun cs hcs => ⟨_, toNat_ofWord_lt (interleave c.W c.D cs), respond_interleave hcs⟩,
    fun cs ds => interleave_congr (config_D_pos c)⟩

end Sys2Proof.Machine
end

section
/-!
What `60_exceptions.md` says can go wrong: an illegal configuration, which elaboration refuses (R90);
nothing at run time (R89); and a request that coincides with reset, which loses (R94).
-/

namespace Sys2Proof.Machine

/-- Settles O2: a request that elaboration accepts is legal, and each row of R90 denies one of the
conditions of legality. -/
theorem configurationErrorsAreRefused : Obligations.ConfigurationErrorsAreRefused := by
  intro r herr
  cases h : elaborate r with
  | error e => exact ⟨e, rfl⟩
  | ok c =>
    obtain ⟨hwidth, hpos, hle, n, hlat⟩ := exists_config_iff.mp ⟨c, elaborate_eq_ok_iff.mp h⟩
    rcases herr with hD | hD | hW | hneg | hint
    · omega
    · omega
    · exact absurd hwidth hW
    · exact absurd (hlat ▸ hneg) n.cast_nonneg.not_gt
    · exact absurd ⟨n, hlat⟩ hint

section Entering

variable (c : Config) (s : State)

/-- What a cycle lets in, as R107 observes it: on the outputs with LATENCY = 0 (R108), at `P[1]`
otherwise (R109). A reset cycle lets nothing in. -/
theorem entered_clock (rst : Bool) (e : Option Response) :
    (if c.latency = 0 then (clock c rst e s).out else pipeEntry (clock c rst e s).pipe 1) =
      if rst then none else e := by
  cases rst with
  | true => simp [outputsOf]
  | false =>
    by_cases hlat : c.latency = 0
    · simp [hlat, outputsOf]
    · simp [hlat, pipeEntry_advancedPipe c e s.pipe 0 (Nat.pos_of_ne_zero hlat)]

/-- R89: whatever the request, its operation answers a next state, which its response has entered. -/
theorem execIn_answers (i : Instr) : ∃ t, execIn c i s = .next t ∧
    (if c.latency = 0 then t.out else pipeEntry t.pipe 1) = some (respond c i) :=
  ⟨_, execIn_eq c i s, entered_clock c s false _⟩

theorem stepIn_answers : ∃ t, stepIn c s = .next t :=
  ⟨_, stepIn_eq c s⟩

end Entering

/-- Settles O36: for the family, and for the fixed names as members of it. -/
theorem nothingFaults : Obligations.NothingFaults :=
  ⟨fun c i s => execIn_answers c s i, stepIn_answers,
    fun i s => exec_eq_execIn i s ▸ execIn_answers instanceConfig s i,
    fun s => step_eq_stepIn s ▸ stepIn_answers instanceConfig s⟩

/-- A step with `rst = 1` is the reset cycle, whatever else is on the ports (R94, R106). -/
theorem stepIn_of_rst {c : Config} {s : State} (h : (currentPorts s).rst = true) :
    stepIn c s = .next (resetCycle c (advanceInputs s)) := by
  rw [stepIn, cycleOn, if_pos h]

/-- Settles O42: with a request or without one, the cycle is the reset cycle. -/
theorem resetWinsOverARequest : Obligations.ResetWinsOverARequest := by
  intro c s i rest
  have hrequest := stepIn_of_rst (c := c)
    (s := { s with inputs := { requestPorts i with rst := true } :: rest }) rfl
  have hreset := stepIn_of_rst (c := c) (s := { s with inputs := resetPorts :: rest }) rfl
  exact hrequest.trans hreset.symm

end Sys2Proof.Machine
end

section
/-!
One clock cycle as a function of the state (`70_reset_and_hazards.md` R107 to R109, R111). The
responses on their way stand at the places 0 to L: at place 0 the response of the request presented
in the cycle, at place i ≥ 1 what `P[i]` holds. In a cycle with `rst = 0` the outputs hold place L
and every other place moves up by one; a cycle with `rst = 1` empties them all. Said so, LATENCY = 0
is no case of its own.
-/

namespace Sys2Proof.Machine

section Ports

variable {c : Config} {p : InPorts}

/-- R107. -/
theorem accepts_iff : p.accepts = true ↔ p.inValid = true ∧ p.rst = false := by
  simp [InPorts.accepts]

theorem acceptedResponse_of_accepts (h : p.accepts = true) :
    acceptedResponse c p = some (respond c (selectOp p.inOp p.inCode)) :=
  if_pos h

theorem acceptedResponse_of_not_accepts (h : ¬ p.accepts = true) : acceptedResponse c p = none :=
  if_neg h

theorem acceptedResponse_eq_some_iff {r : Response} :
    acceptedResponse c p = some r ↔
      p.accepts = true ∧ r = respond c (selectOp p.inOp p.inCode) := by
  by_cases h : p.accepts = true
  · rw [acceptedResponse_of_accepts h, Option.some_inj, eq_comm, and_iff_right h]
  · simp [acceptedResponse_of_not_accepts h, h]

theorem acceptedResponse_isSome : (acceptedResponse c p).isSome = p.accepts := by
  cases h : p.accepts <;> simp [acceptedResponse, h]

/-- With `rst = 1` no request is accepted (R94). -/
theorem acceptedResponse_of_rst (h : p.rst = true) : acceptedResponse c p = none :=
  acceptedResponse_of_not_accepts (by simp [accepts_iff, h])

end Ports

section OneCycle

variable (c : Config) (s : State)

/-- The state that one clock cycle leads to. -/
def nextState : State :=
  clock c (currentPorts s).rst (acceptedResponse c (currentPorts s)) (advanceInputs s)

theorem stepIn_eq_nextState : stepIn c s = .next (nextState c s) :=
  stepIn_eq c s

/-- What stands at place i of the way from the request ports to the outputs. -/
def inFlight (i : Nat) : Option Response :=
  if i = 0 then acceptedResponse c (currentPorts s) else pipeEntry s.pipe i

theorem inFlight_zero : inFlight c s 0 = acceptedResponse c (currentPorts s) :=
  if_pos rfl

theorem inFlight_of_pos {i : Nat} (hi : 1 ≤ i) : inFlight c s i = pipeEntry s.pipe i :=
  if_neg (Nat.ne_of_gt hi)

/-- The outputs hold place L, for LATENCY = 0 (R108) as for LATENCY ≥ 1 (R109). -/
theorem nextState_out :
    (nextState c s).out = if (currentPorts s).rst then none else inFlight c s c.latency :=
  rfl

theorem nextState_inputs : (nextState c s).inputs = s.inputs.tail :=
  rfl

/-- Place i moves up by one, unless reset empties it (R106, R109). -/
theorem pipeEntry_nextState {i : Nat} (hi : i < c.latency) :
    pipeEntry (nextState c s).pipe (i + 1) =
      if (currentPorts s).rst then none else inFlight c s i := by
  unfold nextState
  cases (currentPorts s).rst with
  | true => exact pipeEntry_clearedPipe c _
  | false => exact pipeEntry_advancedPipe c _ s.pipe i hi

theorem length_nextState_pipe (h : s.pipe.length = c.latency) :
    (nextState c s).pipe.length = c.latency := by
  unfold nextState
  cases (currentPorts s).rst with
  | true => exact length_clearedPipe c
  | false => exact length_advancedPipe c _ s.pipe h

theorem nextState_pipe_of_rst (h : (currentPorts s).rst = true) :
    (nextState c s).pipe = clearedPipe c := by
  rw [nextState, h, clock_true_pipe]

/-- What a cycle lets in is the response of the request it accepts, and nothing without one. -/
theorem entered_nextState :
    (if c.latency = 0 then (nextState c s).out else pipeEntry (nextState c s).pipe 1) =
      acceptedResponse c (currentPorts s) := by
  have hentered := entered_clock c (advanceInputs s) (currentPorts s).rst
    (acceptedResponse c (currentPorts s))
  refine hentered.trans ?_
  split
  · next hrst => exact (acceptedResponse_of_rst hrst).symm
  · rfl

/-- `out_valid = 1` exactly where place L is FULL and `rst = 0`. -/
theorem nextState_outValid :
    (nextState c s).outValid = ((inFlight c s c.latency).isSome && !(currentPorts s).rst) := by
  rw [State.outValid, nextState_out]
  cases (currentPorts s).rst <;> simp

theorem nextState_out_of_valid (h : (nextState c s).outValid = true) :
    (nextState c s).out = inFlight c s c.latency := by
  rw [nextState_outValid, Bool.and_eq_true, Bool.not_eq_true'] at h
  rw [nextState_out, h.2, if_neg Bool.false_ne_true]

/-- An empty pipeline has nothing at any place but place 0. -/
theorem inFlight_of_empty {s : State} (h : ∀ e ∈ s.pipe, e = none) {i : Nat} (hi : 1 ≤ i) :
    inFlight c s i = none := by
  rw [inFlight_of_pos c s hi, pipeEntry]
  cases hentry : s.pipe[i - 1]? with
  | none => rfl
  | some e => rw [h e (List.mem_of_getElem? hentry), Option.join_some]

end OneCycle

/-- Settles O38: the cycle lets in the response of the request it accepts. -/
theorem acceptanceRule : Obligations.AcceptanceRule := by
  intro c s p rest hs
  refine ⟨_, stepIn_eq_nextState c s, ?_⟩
  rw [entered_nextState, currentPorts_of_cons s hs]
  exact ⟨fun hvalid hrst => acceptedResponse_of_accepts (accepts_iff.mpr ⟨hvalid, hrst⟩),
    fun h => acceptedResponse_of_not_accepts (mt accepts_iff.mp h)⟩

/-- Settles O39: with LATENCY = 0 what the cycle lets in stands on its outputs, and the pipeline has
no entry. -/
theorem combinationalWithoutLatency : Obligations.CombinationalWithoutLatency := by
  intro c s hlat p
  have hout : (nextState c s).out = acceptedResponse c p := by
    simpa [hlat] using entered_nextState c s
  have hpipe : (nextState c s).pipe = [] := by
    cases hrst : (currentPorts s).rst <;>
      simp [nextState, hrst, clearedPipe, advancedPipe, hlat]
  refine ⟨_, stepIn_eq_nextState c s, ?_, ?_, hpipe⟩
  · rw [State.outValid, hout, acceptedResponse_isSome, InPorts.accepts]
  · intro hvalid
    obtain ⟨r, hr⟩ := Option.isSome_iff_exists.mp hvalid
    obtain ⟨-, rfl⟩ := acceptedResponse_eq_some_iff.mp (hout.symm.trans hr)
    exact hr

/-- Settles O40: places 1 to L are the entries of the pipeline, place 0 is what the cycle accepts. -/
theorem pipelineUpdate : Obligations.PipelineUpdate := by
  intro c s hlat hlen p
  rw [← inFlight_of_pos c s hlat]
  refine ⟨_, stepIn_eq_nextState c s, nextState_outValid c s, nextState_out_of_valid c s,
    length_nextState_pipe c s hlen, fun hrst i _ _ => ?_, fun hrst => ⟨fun i hi hle => ?_, ?_⟩⟩
  · rw [nextState_pipe_of_rst c s hrst, pipeEntry_clearedPipe]
  · obtain ⟨j, rfl⟩ : ∃ j, i = j + 1 := ⟨i - 1, by omega⟩
    rw [pipeEntry_nextState c s hle, if_neg (ne_true_of_eq_false hrst)]
    exact inFlight_of_pos c s (Nat.le_of_succ_le_succ hi)
  · rw [pipeEntry_nextState c s hlat, if_neg (ne_true_of_eq_false hrst), inFlight_zero,
      acceptedResponse, InPorts.accepts, hrst, Bool.not_false, Bool.and_true]

/-- Settles O44: reset empties the pipeline, and with L ≥ 1 the outputs of the next cycle are those
of place L ≥ 1. -/
theorem nothingValidRightAfterReset : Obligations.NothingValidRightAfterReset := by
  intro c s t u hrst ht
  have hempty : ∀ e ∈ t.pipe, e = none := by
    cases (stepIn_eq_nextState c s).symm.trans ht
    rw [nextState_pipe_of_rst c s hrst]
    exact fun e => mem_clearedPipe
  refine ⟨hempty, fun hlat hu => ?_⟩
  cases (stepIn_eq_nextState c t).symm.trans hu
  rw [nextState_outValid, inFlight_of_empty c hempty hlat]
  rfl

end Sys2Proof.Machine
end

section
/-!
Several clock cycles (`70_reset_and_hazards.md` R104, R110). A response stands at place i + k after
k cycles exactly when it stood at place i before them and none of them was a reset cycle; so the
outputs of a cycle are the response that stood k places before the last, k cycles earlier.
-/

namespace Sys2Proof.Machine

section Runs

variable (c : Config)

/-- The state after n clock cycles. -/
def stateAfter (n : Nat) (s : State) : State :=
  (nextState c)^[n] s

variable (s : State)

theorem stateAfter_succ (n : Nat) :
    stateAfter c (n + 1) s = nextState c (stateAfter c n s) :=
  Function.iterate_succ_apply' _ n s

theorem stateAfter_succ_first (n : Nat) :
    stateAfter c (n + 1) s = stateAfter c n (nextState c s) :=
  Function.iterate_succ_apply _ n s

theorem stateAfter_add (m n : Nat) :
    stateAfter c (m + n) s = stateAfter c m (stateAfter c n s) :=
  Function.iterate_add_apply _ m n s

theorem run_eq_stateAfter (n : Nat) :
    Host.Core.run (coreIn c) n s = .next (stateAfter c n s) := by
  induction n generalizing s with
  | zero => rfl
  | succ n ih => exact (run_succ c n s).trans (ih (nextState c s))

/-- The plan moves on by one entry a cycle, reset cycles included. -/
theorem stateAfter_inputs (n : Nat) : (stateAfter c n s).inputs = s.inputs.drop n := by
  induction n with
  | zero => rfl
  | succ n ih => rw [stateAfter_succ, nextState_inputs, ih, List.tail_drop]

theorem plannedPorts_stateAfter (n k : Nat) :
    plannedPorts (stateAfter c n s) k = plannedPorts s (n + k) := by
  simp [plannedPorts, stateAfter_inputs]

theorem currentPorts_stateAfter (n : Nat) :
    currentPorts (stateAfter c n s) = plannedPorts s n := by
  rw [← plannedPorts_zero, plannedPorts_stateAfter, Nat.add_zero]

theorem noResetFrom_stateAfter (n m : Nat) :
    (stateAfter c n s).NoResetFrom 0 m ↔ s.NoResetFrom n (n + m) := by
  simp only [State.NoResetFrom, plannedPorts_stateAfter]
  constructor
  · intro h k hn hm
    obtain ⟨j, rfl⟩ := Nat.exists_eq_add_of_le hn
    exact h j (Nat.zero_le j) (by omega)
  · exact fun h k _ hm => h (n + k) (by omega) (by omega)

theorem noResetFrom_zero_iff (k : Nat) :
    s.NoResetFrom 0 k ↔ ∀ j < k + 1, (plannedPorts s j).rst = false := by
  simp [State.NoResetFrom]

/-- A response moves up by one place a cycle, and only a reset stops it. -/
theorem inFlight_stateAfter {i k : Nat} (h : i + k ≤ c.latency) (r : Response) :
    inFlight c (stateAfter c k s) (i + k) = some r ↔
      inFlight c s i = some r ∧ ∀ j < k, (plannedPorts s j).rst = false := by
  induction k with
  | zero => simp [stateAfter]
  | succ k ih =>
    rw [stateAfter_succ, ← Nat.add_assoc, inFlight_of_pos c _ (Nat.le_add_left 1 (i + k)),
      pipeEntry_nextState (i := i + k) c _ h, currentPorts_stateAfter, Nat.forall_lt_succ_right,
      ← and_assoc, ← ih (Nat.le_of_succ_le h)]
    cases (plannedPorts s k).rst <;> simp

/-- R110 in general: the outputs of cycle k ≤ L, the first being cycle 0, hold what stood k places
before the last at the start, unless one of the cycles up to it was a reset cycle. -/
theorem out_stateAfter {k : Nat} (hk : k ≤ c.latency) (r : Response) :
    (stateAfter c (k + 1) s).out = some r ↔
      inFlight c s (c.latency - k) = some r ∧ s.NoResetFrom 0 k := by
  have hplaces : c.latency - k + k = c.latency := Nat.sub_add_cancel hk
  have hflight := inFlight_stateAfter c s hplaces.le r
  rw [hplaces] at hflight
  rw [stateAfter_succ, nextState_out, currentPorts_stateAfter, noResetFrom_zero_iff,
    Nat.forall_lt_succ_right, ← and_assoc, ← hflight]
  cases (plannedPorts s k).rst <;> simp

/-- R110: what the outputs hold in cycle n + L. -/
theorem out_stateAfter_latency (n : Nat) (r : Response) :
    (stateAfter c (n + c.latency + 1) s).out = some r ↔
      acceptedResponse c (plannedPorts s n) = some r ∧ s.NoResetFrom n (n + c.latency) := by
  have hsplit : n + c.latency + 1 = c.latency + 1 + n := by omega
  rw [hsplit, stateAfter_add, out_stateAfter c _ le_rfl, Nat.sub_self, inFlight_zero,
    currentPorts_stateAfter, noResetFrom_stateAfter]

/-- From an empty pipeline the first L cycles deliver nothing. -/
theorem out_stateAfter_of_empty {s : State} (hempty : ∀ e ∈ s.pipe, e = none) {n : Nat}
    (hn : n < c.latency) : (stateAfter c (n + 1) s).out = none := by
  refine Option.eq_none_iff_forall_ne_some.mpr fun r hr => ?_
  have hstart := ((out_stateAfter c s hn.le r).mp hr).1
  rw [inFlight_of_empty c hempty (Nat.sub_pos_of_lt hn)] at hstart
  cases hstart

end Runs

/-- Settles O45, by the place a response has reached k cycles after its acceptance. -/
theorem deliveryExactlyLatencyLater : Obligations.DeliveryExactlyLatencyLater := by
  refine fun c => ⟨?_, fun s n hempty hn => ⟨_, run_eq_stateAfter c s _, ?_⟩⟩
  · intro s n p
    refine ⟨_, run_eq_stateAfter c s _, fun r => ?_⟩
    rw [out_stateAfter_latency, acceptedResponse_eq_some_iff, accepts_iff]
    constructor
    · rintro ⟨⟨⟨hvalid, -⟩, hr⟩, hreset⟩
      exact ⟨hvalid, hreset, hr⟩
    · rintro ⟨hvalid, hreset, hr⟩
      exact ⟨⟨⟨hvalid, hreset n le_rfl (Nat.le_add_right _ _)⟩, hr⟩, hreset⟩
  · rw [State.outValid, out_stateAfter_of_empty c hempty hn]
    rfl

end Sys2Proof.Machine
end

section
/-!
The sequence of responses delivered (`70_reset_and_hazards.md` R104): the outputs of the cycles in
their order. From an empty pipeline, where no reset falls into the L cycles after an acceptance, the
outputs of cycle n + L are the response of the request accepted in cycle n, so the sequence is that
of the accepted responses.
-/

namespace Sys2Proof.Machine

section Delivered

variable (c : Config)

theorem delivered_eq_flatMap_out (n : Nat) (s : State) :
    State.delivered c n s =
      (List.range n).flatMap fun k => (stateAfter c (k + 1) s).out.toList := by
  induction n generalizing s with
  | zero => rfl
  | succ n ih =>
    have hfirst : State.delivered c (n + 1) s =
        (nextState c s).out.toList ++ State.delivered c n (nextState c s) := delivered_succ c n s
    rw [hfirst, ih, List.range_succ_eq_map, List.flatMap_cons, List.flatMap_map]
    rfl

/-- No reset falls into the L cycles after an acceptance. -/
def AcceptedAreDelivered (s : State) : Prop :=
  ∀ n, (plannedPorts s n).accepts = true → s.NoResetFrom n (n + c.latency)

theorem out_stateAfter_of_acceptedAreDelivered {s : State} (h : AcceptedAreDelivered c s)
    (n : Nat) : (stateAfter c (n + c.latency + 1) s).out =
      acceptedResponse c (plannedPorts s n) := by
  ext r
  rw [out_stateAfter_latency, and_iff_left_iff_imp]
  exact fun hr => h n (acceptedResponse_eq_some_iff.mp hr).1

theorem acceptedResponse_idlePorts : acceptedResponse c idlePorts = none :=
  rfl

/-- What the first n planned cycles accept; beyond the plan nothing is (log entry 4). -/
theorem flatMap_plannedPorts (n : Nat) (s : State) :
    ((List.range n).flatMap fun k => (acceptedResponse c (plannedPorts s k)).toList) =
      (s.inputs.take n).flatMap fun p => (acceptedResponse c p).toList := by
  have hplan (l : List InPorts) :
      ((List.range n).flatMap fun k => (acceptedResponse c (l.getD k idlePorts)).toList) =
        (l.take n).flatMap fun p => (acceptedResponse c p).toList := by
    induction l generalizing n with
    | nil => simp [acceptedResponse_idlePorts]
    | cons p rest ih =>
      cases n with
      | zero => rfl
      | succ n =>
        rw [List.range_succ_eq_map, List.flatMap_cons, List.flatMap_map, List.take_succ_cons,
          List.flatMap_cons, ← ih]
        rfl
  exact hplan s.inputs

/-- R104 over the whole plan: the first L cycles deliver nothing, and cycle n + L what cycle n
accepts. -/
theorem delivered_of_empty {s : State} (hempty : ∀ e ∈ s.pipe, e = none)
    (h : AcceptedAreDelivered c s) {n : Nat} (hn : c.latency ≤ n) :
    State.delivered c n s =
      (s.inputs.take (n - c.latency)).flatMap fun p => (acceptedResponse c p).toList := by
  obtain ⟨m, rfl⟩ := Nat.exists_eq_add_of_le hn
  have hsilent : ((List.range c.latency).flatMap fun k =>
      (stateAfter c (k + 1) s).out.toList) = [] := by
    rw [List.flatMap_eq_nil_iff]
    intro k hk
    rw [out_stateAfter_of_empty c hempty (List.mem_range.mp hk), Option.toList_none]
  rw [delivered_eq_flatMap_out, List.range_add, List.flatMap_append, hsilent, List.nil_append,
    List.flatMap_map, Nat.add_sub_cancel_left, ← flatMap_plannedPorts]
  refine List.flatMap_congr fun k _ => ?_
  rw [Nat.add_comm c.latency k, out_stateAfter_of_acceptedAreDelivered c h]

/-- Cycles that accept nothing contribute nothing. -/
theorem flatMap_acceptedResponse_of_none {l : List InPorts} (h : ∀ p ∈ l, p.accepts = false) :
    (l.flatMap fun p => (acceptedResponse c p).toList) = [] := by
  rw [List.flatMap_eq_nil_iff]
  intro p hp
  rw [acceptedResponse_of_not_accepts (ne_true_of_eq_false (h p hp)), Option.toList_none]

/-- Cycles without reset contribute `F(op, code)` of each request presented. -/
theorem flatMap_acceptedResponse_of_noReset {l : List InPorts} (h : ∀ p ∈ l, p.rst = false) :
    (l.flatMap fun p => (acceptedResponse c p).toList) =
      (l.filter fun p => p.inValid).map fun p => respond c (selectOp p.inOp p.inCode) := by
  induction l with
  | nil => rfl
  | cons p rest ih =>
    rw [List.forall_mem_cons] at h
    rw [List.flatMap_cons, ih h.2, List.filter_cons, acceptedResponse, InPorts.accepts, h.1,
      Bool.not_false, Bool.and_true]
    cases p.inValid <;> rfl

end Delivered

section Plan

variable {c : Config} {s : State} {before body tail rest : List InPorts}

/-- What holds of the idle cycle and of every entry of a list holds of each cycle planned by it. -/
theorem getD_idlePorts_of_forall {P : InPorts → Prop} (hidle : P idlePorts) {l : List InPorts}
    (h : ∀ p ∈ l, P p) (k : Nat) : P (l.getD k idlePorts) := by
  rw [List.getD_eq_getElem?_getD]
  cases hk : l[k]? with
  | none => exact hidle
  | some p => exact h p (List.mem_of_getElem? hk)

/-- The requests of `body` are the only ones, and no reset falls into `body` or `tail`. -/
theorem acceptedAreDelivered_of_plan (hs : s.inputs = before ++ (body ++ tail ++ rest))
    (hquiet : ∀ p ∈ before ++ tail ++ rest, p.accepts = false)
    (hreset : ∀ p ∈ body ++ tail, p.rst = false) (htail : tail.length = c.latency) :
    AcceptedAreDelivered c s := by
  intro n hn k hnk hkn
  rw [List.append_assoc, List.forall_mem_append] at hquiet
  have hfirst : before.length ≤ n := by
    by_contra hlt
    rw [plannedPorts, hs, List.getD_append _ _ _ _ (Nat.lt_of_not_le hlt),
      getD_idlePorts_of_forall (P := fun p => p.accepts = false) rfl hquiet.1 n] at hn
    cases hn
  have hlast : n < before.length + body.length := by
    by_contra hge
    rw [plannedPorts, hs, List.getD_append_right _ _ _ _ hfirst, List.append_assoc,
      List.getD_append_right _ _ _ _ (by omega),
      getD_idlePorts_of_forall (P := fun p => p.accepts = false) rfl hquiet.2] at hn
    cases hn
  rw [plannedPorts, hs, List.getD_append_right _ _ _ _ (hfirst.trans hnk),
    List.getD_append _ _ _ _ (by rw [List.length_append]; omega)]
  exact getD_idlePorts_of_forall (P := fun p => p.rst = false) rfl hreset _

end Plan

/-- Settles O46: the plan meets the condition of `delivered_of_empty`, and all that it accepts is in
`body`. -/
theorem deliveredSequenceIsF : Obligations.DeliveredSequenceIsF := by
  intro c s before body tail rest n hempty hs hquiet hreset htail hn
  have hplan : s.inputs = before ++ (body ++ tail ++ rest) := by simpa using hs
  have hall := acceptedAreDelivered_of_plan hplan hquiet hreset htail
  have htake : s.inputs.take (n - c.latency) =
      before ++ (body ++ (tail ++ rest).take (n - c.latency - before.length - body.length)) := by
    rw [hplan, List.append_assoc, List.take_append, List.take_append,
      List.take_of_length_le (by omega), List.take_of_length_le (by omega)]
  rw [List.append_assoc, List.forall_mem_append] at hquiet
  rw [delivered_of_empty c hempty hall (by omega), htake, List.flatMap_append,
    List.flatMap_append, flatMap_acceptedResponse_of_none c hquiet.1,
    flatMap_acceptedResponse_of_none c fun p hp => hquiet.2 p (List.mem_of_mem_take hp),
    flatMap_acceptedResponse_of_noReset c (List.forall_mem_append.mp hreset).1, List.nil_append,
    List.append_nil]

end Sys2Proof.Machine
end

section
/-!
The encoder against the decoder (`30_encoding.md` section 1). The request word of a request is the
one that presents it on the ports, so decoding it is what a cycle does with those ports.
-/

namespace Sys2Proof.Machine

section Encode

variable {W : Nat} (i : Instr)

theorem encode_eq_request : encode W i = (requestPorts i).request W :=
  rfl

@[simp] theorem selectOp_op_code : selectOp i.op i.code = i := by
  cases i <;> rfl

/-- A request whose code fits the word width comes back from its request word. -/
theorem decode_encode {i : Instr} (h : i.wellFormed W = true) : decode W (encode W i) = i := by
  calc decode W (encode W i)
      = selectOp i.op (ofWord (toWord W i.code)) := by
        rw [encode_eq_request, decode_request]
        rfl
    _ = selectOp i.op i.code := by rw [ofWord_toWord _ ((wellFormed_iff W i).mp h)]
    _ = i := selectOp_op_code i

/-- R44: the op stands at bit 0. -/
theorem getLsbD_encode_zero : (encode W i).getLsbD 0 = i.op.getLsbD 0 := by
  rw [encode, BitVec.getLsbD_append]
  simp

/-- R44: code bit b stands at bit b + 1. -/
theorem getLsbD_encode_succ {b : Nat} (hb : b < W) :
    (encode W i).getLsbD (b + 1) = i.code.getLsbD b := by
  rw [encode, BitVec.getLsbD_append]
  simp [hb]

end Encode

/-- Settles O30, for both operations at once: a request is its op and its code. -/
theorem decodeEncodeAgree : Obligations.DecodeEncodeAgree :=
  fun _ _ => decode_encode

/-- Settles O31, by evaluating the decoder on the eight words. -/
theorem writtenOutWordsDecode : Obligations.WrittenOutWordsDecode := by
  unfold Obligations.WrittenOutWordsDecode
  decide

end Sys2Proof.Machine
end

section
/-!
The invariants of one deinterleaver (`10_state.md` section 4, `70_reset_and_hazards.md` section 2).
Both say that the pipeline has L entries and that every response held has a property which every
accepted response has; a cycle moves responses and adds the accepted one, so it keeps any such
statement.
-/

namespace Sys2Proof.Machine

/-- The pipeline has L entries, and every response in it or on the outputs has property `P`. -/
def State.HoldsOnly (c : Config) (P : Response → Prop) (s : State) : Prop :=
  s.pipe.length = c.latency ∧ (∀ e ∈ s.pipe, ∀ r ∈ e, P r) ∧ ∀ r ∈ s.out, P r

section HoldsOnly

variable {c : Config} {P : Response → Prop} {s : State}

theorem wellFormed_iff_holdsOnly :
    s.WellFormed c ↔ s.HoldsOnly c (Response.FitsPorts c) :=
  Iff.rfl

theorem allGenuine_iff_holdsOnly :
    s.AllGenuine c ↔ s.HoldsOnly c (Response.Genuine c) :=
  Iff.rfl

theorem holdsOnly_resetOf : (State.resetOf c).HoldsOnly c P := by
  refine ⟨List.length_replicate, fun e he r hr => ?_, fun r hr => nomatch hr⟩
  cases mem_clearedPipe he
  cases hr

/-- An entry of the pipeline after a cycle was accepted in it or stood in the pipeline before. -/
theorem mem_nextState_pipe {r : Response} (hr : some r ∈ (nextState c s).pipe) :
    acceptedResponse c (currentPorts s) = some r ∨ some r ∈ s.pipe := by
  unfold nextState at hr
  cases hrst : (currentPorts s).rst with
  | true =>
    rw [hrst] at hr
    cases mem_clearedPipe hr
  | false =>
    rw [hrst] at hr
    exact (mem_advancedPipe hr).imp Eq.symm id

/-- What the outputs hold in a cycle was accepted in it or stood in the pipeline. -/
theorem mem_nextState_out {r : Response} (hr : (nextState c s).out = some r) :
    acceptedResponse c (currentPorts s) = some r ∨ some r ∈ s.pipe :=
  (outputsOf_cases hr).2.imp And.right And.right

/-- The frame of a cycle as an invariant: it keeps every property of the responses held that an
accepted response has. -/
theorem holdsOnly_nextState (haccept : ∀ p r, acceptedResponse c p = some r → P r)
    (hs : s.HoldsOnly c P) : (nextState c s).HoldsOnly c P := by
  obtain ⟨hlen, hpipe, -⟩ := hs
  have hheld {r : Response}
      (hr : acceptedResponse c (currentPorts s) = some r ∨ some r ∈ s.pipe) : P r :=
    hr.elim (haccept _ r) fun hmem => hpipe _ hmem r rfl
  refine ⟨length_nextState_pipe c s hlen, fun e he r hr => ?_, fun r hr => ?_⟩
  · cases hr
    exact hheld (mem_nextState_pipe he)
  · exact hheld (mem_nextState_out hr)

theorem holdsOnly_of_stepIn (haccept : ∀ p r, acceptedResponse c p = some r → P r) {t : State}
    (hs : s.HoldsOnly c P) (ht : stepIn c s = .next t) : t.HoldsOnly c P := by
  cases (stepIn_eq_nextState c s).symm.trans ht
  exact holdsOnly_nextState haccept hs

end HoldsOnly

section Accepted

variable {c : Config} {p : InPorts} {r : Response}

theorem fitsPorts_of_accepted (h : acceptedResponse c p = some r) : r.FitsPorts c := by
  obtain ⟨-, rfl⟩ := acceptedResponse_eq_some_iff.mp h
  exact respond_fitsPorts c _

/-- The request behind an accepted response has the code that the W wires of `in_code` carry. -/
theorem genuine_of_accepted (h : acceptedResponse c p = some r) : r.Genuine c := by
  obtain ⟨-, rfl⟩ := acceptedResponse_eq_some_iff.mp h
  refine ⟨selectOp p.inOp (ofWord (toWord c.W p.inCode)), ?_, (respond_selectOp_toWord c _ _).symm⟩
  rw [wellFormed_iff, selectOp_code]
  exact toNat_ofWord_lt _

end Accepted

section Kept

variable {c : Config} {s t : State}

theorem stepIn_wellFormed (hs : s.WellFormed c) (ht : stepIn c s = .next t) : t.WellFormed c :=
  wellFormed_iff_holdsOnly.mpr
    (holdsOnly_of_stepIn (fun _ _ => fitsPorts_of_accepted) (wellFormed_iff_holdsOnly.mp hs) ht)

theorem stepIn_allGenuine (hs : s.AllGenuine c) (ht : stepIn c s = .next t) : t.AllGenuine c :=
  allGenuine_iff_holdsOnly.mpr
    (holdsOnly_of_stepIn (fun _ _ => genuine_of_accepted) (allGenuine_iff_holdsOnly.mp hs) ht)

theorem resetOf_wellFormed : (State.resetOf c).WellFormed c :=
  wellFormed_iff_holdsOnly.mpr holdsOnly_resetOf

theorem resetOf_allGenuine : (State.resetOf c).AllGenuine c :=
  allGenuine_iff_holdsOnly.mpr holdsOnly_resetOf

end Kept

/-- Settles O49: every accepted response fits the ports. -/
theorem wellFormedKeptByEveryStep : Obligations.WellFormedKeptByEveryStep :=
  ⟨fun _ _ _ => stepIn_wellFormed,
    fun s _ hs ht => stepIn_wellFormed hs (step_eq_stepIn s ▸ ht)⟩

/-- Settles O50: every accepted response answers the request it was accepted for. -/
theorem genuineKeptByEveryStep : Obligations.GenuineKeptByEveryStep :=
  ⟨fun _ _ _ => stepIn_allGenuine,
    fun s _ hs ht => stepIn_allGenuine hs (step_eq_stepIn s ▸ ht)⟩

/-- Settles O51: right after reset no response is held at all. -/
theorem resetMeetsTheInvariants : Obligations.ResetMeetsTheInvariants :=
  ⟨fun _ => ⟨resetOf_wellFormed, resetOf_allGenuine⟩, resetOf_wellFormed, resetOf_allGenuine⟩

section Bounds

variable {c : Config} {i : Instr} {k : Nat} {v : Bus}

theorem lane_decodeOne_of_pos (code : Bus) (hpos : 1 ≤ k) (hk : k < c.D) :
    (respond c (.decodeOne code)).lane k = some 0#64 := by
  obtain ⟨k, rfl⟩ := Nat.exists_eq_add_of_le' hpos
  exact lane_succ_decodeOne c code hk

/-- R81: lane 0 is the same of both operations. -/
theorem lane_zero_decodeOne_eq_decodeAll (c : Config) (code : Bus) :
    (respond c (.decodeOne code)).lane 0 = (respond c (.decodeAll code)).lane 0 := by
  obtain ⟨v, hone, hall⟩ := bothOperationsAgreeOnLaneZero c code
  rw [hone, hall]

/-- R79 for both operations: lane k lies below `2^L_k`. -/
theorem lane_lt (hv : (respond c i).lane k = some v) : v.toNat < 2 ^ coordWidth c.W c.D k := by
  cases i with
  | decodeAll code => exact lane_decodeAll_lt hv
  | decodeOne code =>
    rcases Nat.eq_zero_or_pos k with rfl | hpos
    · exact lane_decodeAll_lt ((lane_zero_decodeOne_eq_decodeAll c code).symm.trans hv)
    · rw [lane_decodeOne_of_pos code hpos (lt_dims_of_lane hv), Option.some_inj] at hv
      subst hv
      exact Nat.two_pow_pos _

end Bounds

/-- Settles O52: a delivered response is that of some request, whose lanes are bounded. -/
theorem deliveredLanesAreBounded : Obligations.DeliveredLanesAreBounded := by
  rintro c s r ⟨-, -, hout⟩ hr
  obtain ⟨i, -, rfl⟩ := hout r hr
  refine ⟨length_respond_coord c i, fun k v => lane_lt, fun hop k hpos hk => ?_⟩
  cases i with
  | decodeOne code => exact lane_decodeOne_of_pos code hpos hk
  | decodeAll code => rw [respond_op] at hop; cases hop

end Sys2Proof.Machine
end

section
/-!
The step count (`40_constants.md` sections 3 and 5) and the builder on any unit (section 2): S − 1
is the least exponent of a period that reaches W, and the source's literal is the greatest of one
that does not pass W, so they differ by one unless a period meets W.
-/

namespace Sys2Proof.Machine

section Guard

variable {W D : Nat}

/-- R67: the guard fires on the two inputs that the formula of R62 has no value for. -/
theorem stepCountGuarded_eq_none_iff : stepCountGuarded W D = none ↔ D = 0 ∨ W < D := by
  unfold stepCountGuarded
  split
  · next hbad => exact iff_of_true rfl hbad
  · next hgood => exact iff_of_false (Option.some_ne_none _) hgood

theorem stepCountGuarded_of_legal (hD : 0 < D) (hW : D ≤ W) :
    stepCountGuarded W D = some (stepCount W D) :=
  if_neg (by omega)

theorem ceilDiv_pos (hD : 0 < D) (hW : 0 < W) : 0 < ceilDiv W D :=
  (lt_ceilDiv_iff hD).mpr hW

theorem ceilDiv_le_self (hD : 0 < D) : ceilDiv W D ≤ W :=
  (ceilDiv_le_iff hD).mpr (Nat.le_mul_of_pos_left W hD)

end Guard

/-- Settles O3. -/
theorem stepCountGuardRejectsZeroWidth : Obligations.StepCountGuardRejectsZeroWidth := by
  refine ⟨fun W D => stepCountGuarded_eq_none_iff, fun c => ?_⟩
  have hD := config_D_pos c
  have hW := config_D_le_W c
  exact ⟨stepCountGuarded_of_legal hD hW, ceilDiv_pos hD (hD.trans_le hW), ceilDiv_le_self hD⟩

/-- Settles O7, from the bits of the builder. -/
theorem builderOrsShiftedCopies : Obligations.BuilderOrsShiftedCopies :=
  fun _ p width _ _ hr b => getLsbD_build_iff p width hr b

section StepCount

variable {W D : Nat}

theorem ceilDiv_le_two_pow_stepCount (W D : Nat) : ceilDiv W D ≤ 2 ^ (stepCount W D - 1) :=
  le_two_pow_clog2 _

/-- R62: no count below S gives a last group with room for a coordinate. -/
theorem stepCount_le_of_ceilDiv_le {n : Nat} (hn : 1 ≤ n) (h : ceilDiv W D ≤ 2 ^ (n - 1)) :
    stepCount W D ≤ n :=
  Nat.add_le_of_le_sub hn (clog2_le_iff.mpr h)

/-- R63: a period of twice the literal's groups passes W. -/
theorem stepCount_le_literal_succ (hD : 0 < D) : stepCount W D ≤ literalStepCount W D + 1 := by
  have hpass : W / D < 2 ^ literalStepCount W D := Nat.lt_log2_self
  refine Nat.sub_le_iff_le_add.mp ((stepCount_sub_one_le_iff hD).mpr ?_)
  rw [Nat.mul_comm]
  exact ((Nat.div_lt_iff_lt_mul hD).mp hpass).le

/-- R62: with W and D powers of two the period of `W / D` groups meets W. -/
theorem stepCount_two_pow (k d : Nat) : stepCount (2 ^ k) (2 ^ d) = k - d + 1 := by
  have hlast : stepCount (2 ^ k) (2 ^ d) - 1 = k - d := eq_of_forall_ge_iff fun s => by
    rw [stepCount_sub_one_le_iff (Nat.two_pow_pos d), ← pow_add,
      Nat.pow_le_pow_iff_right one_lt_two, Nat.sub_le_iff_le_add']
  exact congrArg (· + 1) hlast

theorem literalStepCount_two_pow {k d : Nat} (hd : d ≤ k) :
    literalStepCount (2 ^ k) (2 ^ d) = k - d + 1 := by
  rw [literalStepCount, Nat.pow_div hd two_pos, Nat.log2_two_pow]

end StepCount

/-- Settles O10: `clog2` is the least exponent (R14). -/
theorem stepCountIsLeastSufficient : Obligations.StepCountIsLeastSufficient :=
  ⟨fun _ => ⟨Nat.le_add_left 1 _, ceilDiv_le_two_pow_stepCount _ _,
    fun _ => stepCount_le_of_ceilDiv_le⟩, by decide⟩

/-- Settles O11: for a power of two both counts are read off the exponents; otherwise the literal
lies below S, and never by more than one. -/
theorem stepCountAgainstTheLiteral : Obligations.StepCountAgainstTheLiteral := by
  intro c
  refine ⟨fun d hd => ?_, fun hD => ?_⟩
  · obtain ⟨n, hn⟩ := exists_bits_eq_two_pow_succ c.width
    have hW : c.W = 2 ^ (n + 1) := hn
    have hle : d ≤ n + 1 := by
      have hDW := config_D_le_W c
      rwa [hd, hW, Nat.pow_le_pow_iff_right one_lt_two] at hDW
    rw [hd, hW, stepCount_two_pow, literalStepCount_two_pow hle, Nat.log2_two_pow]
    exact ⟨rfl, by omega⟩
  · have hmore := stepCount_le_literal_succ (W := c.W) (config_D_pos c)
    have hless := literal_lt_stepCount_sub_one c hD
    omega

end Sys2Proof.Machine
end

section
/-!
The two operations (`41_deinterleave.md` section 2): the lanes of the corner-case codes, said of
`DECODE_ALL`, whose lane 0 is also that of `DECODE_ONE` (R81); and the frame of an accepted request,
the same for both (`70_reset_and_hazards.md` R108, R109).
-/

namespace Sys2Proof.Machine

section CornerCases

variable {c : Config} {code : Bus} {k : Nat}

/-- R80: a held word with the code bits of coordinate k is lane k. -/
theorem lane_decodeAll_eq_of_bits (hk : k < c.D) {v : Bus}
    (hv : ∀ i, i < 64 →
      v.getLsbD i = (decide (i * c.D + k < c.W) && code.getLsbD (i * c.D + k))) :
    (respond c (.decodeAll code)).lane k = some v := by
  have hlane := lane_decodeAll c code hk
  rw [hlane, Option.some_inj]
  apply BitVec.eq_of_getLsbD_eq
  intro i hi
  rw [getLsbD_lane_decodeAll hlane, hv i hi]

theorem lane_decodeAll_eq_zero (hk : k < c.D)
    (hcode : ∀ i, code.getLsbD (i * c.D + k) = false) :
    (respond c (.decodeAll code)).lane k = some 0#64 :=
  lane_decodeAll_eq_of_bits hk fun i _ => by
    rw [hcode, Bool.and_false, BitVec.getLsbD_zero]

theorem lane_decodeAll_zero_code (hk : k < c.D) :
    (respond c (.decodeAll 0#64)).lane k = some 0#64 :=
  lane_decodeAll_eq_zero hk fun _ => BitVec.getLsbD_zero

/-- R82. -/
theorem lane_decodeAll_one_dim (hone : c.D = 1) (hcode : code.toNat < 2 ^ c.W) :
    (respond c (.decodeAll code)).lane 0 = some code := by
  rw [lane_decodeAll c code (config_D_pos c), shr_zero, hone, deint_one_dim,
    ofWord_toWord code hcode]

/-- With D = W each coordinate is a single code bit. -/
theorem lane_decodeAll_dims_eq_width (hdims : c.D = c.W) (hk : k < c.D) :
    (respond c (.decodeAll code)).lane k = some ((code >>> k) &&& 1#64) := by
  refine lane_decodeAll_eq_of_bits hk fun i _ => ?_
  rw [BitVec.getLsbD_and, BitVec.getLsbD_ushiftRight, BitVec.getLsbD_one]
  rcases Nat.eq_zero_or_pos i with rfl | hpos
  · simp [hdims ▸ hk]
  · have hbeyond : ¬ i * c.D + k < c.W := by
      have hle : c.W ≤ i * c.D := hdims ▸ Nat.le_mul_of_pos_left c.D hpos
      omega
    simp [hbeyond, Nat.ne_of_gt hpos]

/-- Flipping a bit that lies at no place of coordinate 0 does not change `DEINT`. -/
theorem deint_xor_of_not_place {W D : Nat} (hD : 0 < D) (x : Word W) {b : Nat}
    (hb : b % D ≠ 0) : deint W D (x ^^^ shl 1#W b) = deint W D x := by
  apply BitVec.eq_of_getLsbD_eq
  intro i _
  have hplace : i * D ≠ b := fun heq => hb (heq ▸ Nat.mul_mod_left i D)
  have hbit : (shl 1#W b).getLsbD (i * D) = false := by
    rw [← Bool.not_eq_true, getLsbD_shl_iff, BitVec.getLsbD_one]
    simp only [Bool.and_eq_true, decide_eq_true_eq]
    omega
  rw [getLsbD_deint _ hD, getLsbD_deint _ hD, BitVec.getLsbD_xor, hbit, Bool.xor_false]

end CornerCases

section Frame

variable (c : Config) (r : Response) (s : State)

/-- R108: without latency the response stands on the outputs, and there is no pipeline. -/
theorem acceptCycle_of_no_latency (hlat : c.latency = 0) :
    (acceptCycle c r s).out = some r ∧ (acceptCycle c r s).pipe = [] := by
  simp [outputsOf, advancedPipe, hlat]

/-- R109: with L ≥ 1 the outputs hold `P[L]`, the response enters at `P[1]` and the others move on
by one. -/
theorem acceptCycle_of_latency (hlat : 1 ≤ c.latency) :
    (acceptCycle c r s).out = pipeEntry s.pipe c.latency ∧
    pipeEntry (acceptCycle c r s).pipe 1 = some r ∧
    ∀ i, 2 ≤ i → i ≤ c.latency →
      pipeEntry (acceptCycle c r s).pipe i = pipeEntry s.pipe (i - 1) := by
  refine ⟨?_, pipeEntry_advancedPipe c (some r) s.pipe 0 hlat, fun i hi hle => ?_⟩
  · simp [outputsOf, Nat.ne_of_gt hlat]
  · obtain ⟨j, rfl⟩ : ∃ j, i = j + 1 := ⟨i - 1, by omega⟩
    have hj : j ≠ 0 := by omega
    rw [acceptCycle_pipe, pipeEntry_advancedPipe c _ _ j hle, if_neg hj, Nat.add_sub_cancel]

/-- An operation of the fixed `exec`, at the configuration of the fixed names. -/
theorem exec_eq_acceptCycle (i : Instr) (h : c = instanceConfig) :
    exec i s = .next (acceptCycle c (respond c i) s) := by
  rw [exec_eq_execIn, ← h, execIn_eq]

end Frame

/-- Settles O17: the response is `respond`'s, its lane 0 that of `DECODE_ALL` (R81), its encoding
and its frame those of any request. -/
theorem decodeOneRuns : Obligations.DecodeOneRuns := by
  refine ⟨fun c s code hwf => ?_, fun c hW hD => ?_⟩
  · have hD := config_D_pos c
    have hcode := (wellFormed_iff _ _).mp hwf
    have hall := lane_zero_decodeOne_eq_decodeAll c code
    refine ⟨_, respond c (.decodeOne code), execIn_eq c _ s, exec_eq_acceptCycle c s _,
      respond_op c _, length_respond_coord c _, lane_zero_decodeOne c code,
      fun k => lane_decodeOne_of_pos code, (getLsbD_encode_zero _).trans BitVec.getLsbD_zero,
      fun i => getLsbD_encode_succ _, ?zero, fun hones => ?ones,
      fun hone => hall.trans (lane_decodeAll_one_dim hone hcode), fun hdims => ?wide,
      fun hbits => ?noPlace, deint_xor_of_not_place hD _,
      acceptCycle_of_no_latency c _ s, acceptCycle_of_latency c _ s, acceptCycle_inputs c _ s⟩
    case zero =>
      rintro rfl
      exact hall.trans (lane_decodeAll_zero_code hD)
    case ones =>
      have hlane := ones_coordWidth_of_ones hones 0
      rw [shr_zero] at hlane
      exact ⟨_, hlane, lane_zero_decodeOne c code⟩
    case wide =>
      have hlane := lane_decodeAll_dims_eq_width (code := code) hdims hD
      rw [hall, hlane, BitVec.ushiftRight_zero]
    case noPlace =>
      refine hall.trans (lane_decodeAll_eq_zero hD fun i => ?_)
      exact Bool.eq_false_iff.mpr fun hset => hbits _ hset (Nat.mul_mod_left i c.D)
  · have hcoord : (respond c (.decodeOne 0xB6)).coord = [0x06, 0x00] := by
      rw [coord_decodeOne, hW, hD]
      decide
    refine ⟨by decide, ?_, hcoord⟩
    rw [Response.pack, hcoord, respond_op]
    decide

/-- Settles O18: as for `DECODE_ONE`, with the lanes of `DECODE_ALL` one by one. -/
theorem decodeAllRuns : Obligations.DecodeAllRuns := by
  refine ⟨fun c s code hwf => ?_, fun c hW hD => ?_⟩
  · have hcode := (wellFormed_iff _ _).mp hwf
    refine ⟨_, respond c (.decodeAll code), execIn_eq c _ s, exec_eq_acceptCycle c s _,
      respond_op c _, length_respond_coord c _,
      fun k hk => ⟨hk.trans_le (config_D_le_W c), lane_decodeAll c code hk⟩,
      (getLsbD_encode_zero _).trans BitVec.getLsbD_one, fun i => getLsbD_encode_succ _, ?zero,
      fun hones k hk => ⟨_, ones_coordWidth_of_ones hones k, lane_decodeAll c code hk⟩,
      fun hone => lane_decodeAll_one_dim hone hcode,
      fun hdims k => lane_decodeAll_dims_eq_width hdims,
      fun k v hv => Nat.le_sub_one_of_lt (lane_decodeAll_lt hv),
      acceptCycle_of_no_latency c _ s, acceptCycle_of_latency c _ s, acceptCycle_inputs c _ s⟩
    case zero =>
      rintro rfl k hk
      exact lane_decodeAll_zero_code hk
  · have hcoord : (respond c (.decodeAll 0xB6)).coord = [0x06, 0x0D] := by
      rw [coord_decodeAll, hW, hD]
      decide
    refine ⟨by decide, ?_, hcoord⟩
    rw [Response.pack, hcoord, respond_op]
    decide

end Sys2Proof.Machine
end

section
/-!
A cycle by its port values (`10_state.md` sections 2 and 3, `70_reset_and_hazards.md` sections 2 and
3): with a request, with reset, and with values that are ignored. Of the state before, only the
pipeline and the planned inputs enter a cycle.
-/

namespace Sys2Proof.Machine

/-- Settles O54. -/
theorem fixedNamesAreOneOfTheFamily : Obligations.FixedNamesAreOneOfTheFamily := by
  refine ⟨exec_eq_execIn, step_eq_stepIn, rfl, ?_⟩
  have hstep : step = stepIn instanceConfig := funext step_eq_stepIn
  rw [core, hstep]
  rfl

section Request

variable {c : Config} {s : State} {p : InPorts} {rest : List InPorts}

theorem advanceInputs_of_cons (h : s.inputs = p :: rest) :
    advanceInputs s = { s with inputs := rest } := by
  rw [advanceInputs, h, List.tail_cons]

/-- A cycle without reset that presents a request word runs the operation it decodes to. -/
theorem stepIn_of_request (h : s.inputs = p :: rest) (hrst : p.rst = false)
    (hvalid : p.inValid = true) :
    stepIn c s = execIn c (decode c.W (p.request c.W)) { s with inputs := rest } := by
  rw [stepIn, cycleOn, currentPorts_of_cons s h, advanceInputs_of_cons h,
    if_neg (ne_true_of_eq_false hrst), if_pos hvalid]

end Request

/-- Settles O35: for the family, and for the fixed `step` as a member of it. -/
theorem stepRunsTheDecodedRequest : Obligations.StepRunsTheDecodedRequest := by
  constructor
  · rintro c s p rest _ hs hrst hvalid rfl
    exact ⟨decode_wellFormed _, stepIn_of_request hs hrst hvalid⟩
  · rintro s p rest _ hs hrst hvalid rfl
    rw [step_eq_stepIn, exec_eq_execIn]
    exact ⟨decode_wellFormed _, stepIn_of_request hs hrst hvalid⟩

section Reset

variable {c : Config} {s : State} {p : InPorts} {rest : List InPorts}

/-- A reset edge leads to the state after reset, but for the planned inputs (R106). -/
theorem resetCycle_eq_resetOf (s : State) :
    resetCycle c s = { State.resetOf c with inputs := s.inputs } :=
  rfl

/-- One reset cycle, from any state whatever. -/
theorem stepIn_reset_of_cons (h : s.inputs = p :: rest) (hrst : p.rst = true) :
    stepIn c s = .next { State.resetOf c with inputs := rest } := by
  have hports : (currentPorts s).rst = true := currentPorts_of_cons s h ▸ hrst
  rw [stepIn_of_rst hports, advanceInputs_of_cons h, resetCycle_eq_resetOf]

end Reset

/-- Settles O37: the state after a reset cycle does not depend on the state before it, so a second
one changes nothing. -/
theorem resetEmptiesThePipeline : Obligations.ResetEmptiesThePipeline := by
  intro c s p rest hs hrst
  refine ⟨_, stepIn_reset_of_cons hs hrst, rfl, fun i _ _ => pipeEntry_clearedPipe c i, rfl, rfl,
    fun q rest' hrest hq => ?_⟩
  exact ⟨_, stepIn_reset_of_cons hrest hq, rfl, rfl⟩

/-- Settles O48: the power-up pipeline is not read in a reset cycle. -/
theorem oneResetCycleFromPowerUp : Obligations.OneResetCycleFromPowerUp :=
  fun _ _ _ _ hrst => stepIn_reset_of_cons rfl hrst

section Dependence

variable {c : Config} {s s' : State}

/-- The port values enter a cycle by `rst` and by the response they let in. -/
theorem stepIn_congr_ports {p q : InPorts} {rest : List InPorts} (hrst : p.rst = q.rst)
    (haccept : acceptedResponse c p = acceptedResponse c q) :
    stepIn c { s with inputs := p :: rest } = stepIn c { s with inputs := q :: rest } := by
  calc stepIn c { s with inputs := p :: rest }
      = .next (clock c p.rst (acceptedResponse c p) { s with inputs := rest }) := stepIn_eq c _
    _ = .next (clock c q.rst (acceptedResponse c q) { s with inputs := rest }) := by
        rw [hrst, haccept]
    _ = stepIn c { s with inputs := q :: rest } :=
        (stepIn_eq c { s with inputs := q :: rest }).symm

theorem acceptedResponse_of_ignored {p : InPorts} (h : p.rst = true ∨ p.inValid = false) :
    acceptedResponse c p = none := by
  refine acceptedResponse_of_not_accepts (mt accepts_iff.mp ?_)
  rcases h with h | h <;> simp [h]

/-- The outputs of the cycle before do not enter a cycle (log entry 3). -/
theorem nextState_congr (hpipe : s.pipe = s'.pipe) (hinputs : s.inputs = s'.inputs) :
    nextState c s = nextState c s' := by
  cases s
  cases s'
  cases hpipe
  cases hinputs
  rfl

end Dependence

/-- Settles O41: where the port values are ignored, neither of the two cycles lets anything in. -/
theorem ignoredInputsHaveNoEffect : Obligations.IgnoredInputsHaveNoEffect := by
  intro c s p q rest hrst hignored
  have hp : p.rst = true ∨ p.inValid = false := hignored.imp_right And.left
  have hq : q.rst = true ∨ q.inValid = false := hignored.imp (hrst ▸ ·) And.right
  refine stepIn_congr_ports hrst ?_
  rw [acceptedResponse_of_ignored hp, acceptedResponse_of_ignored hq]

end Sys2Proof.Machine
end

section
/-!
What a run leaves of its start (`10_state.md` section 1, `70_reset_and_hazards.md` section 2): the
configuration always, the planned inputs, and the pipeline for L cycles. From cycle L on an entry
is a response accepted since the start, so two runs under the same plan agree.
-/

namespace Sys2Proof.Machine

/-- Settles O43: after n cycles the next one lets in what the plan says for cycle n. -/
theorem configurationNeverChanges : Obligations.ConfigurationNeverChanges := by
  intro c s t n ht hvalid hrst
  cases (run_eq_stateAfter c s n).symm.trans ht
  refine ⟨_, stepIn_eq_nextState c _, ?_⟩
  rw [entered_nextState, currentPorts_stateAfter]
  exact acceptedResponse_of_accepts (accepts_iff.mpr ⟨hvalid, hrst⟩)

section Forgetting

variable {c : Config} {s s' : State}

/-- Two pipelines of the same length are the same where their entries P[1] to P[L] are. -/
theorem pipe_eq_of_pipeEntry_eq {p q : List (Option Response)} (hlen : p.length = q.length)
    (h : ∀ i, i < p.length → pipeEntry p (i + 1) = pipeEntry q (i + 1)) : p = q := by
  refine List.ext_getElem hlen fun i hp hq => ?_
  simpa [pipeEntry, hp, hq] using h i hp

theorem length_stateAfter_pipe (hlen : s.pipe.length = c.latency) (n : Nat) :
    (stateAfter c n s).pipe.length = c.latency := by
  induction n with
  | zero => exact hlen
  | succ n ih => exact stateAfter_succ c s n ▸ length_nextState_pipe c _ ih

/-- What stands at place i ≤ n after n cycles is what cycle n − i accepted, unless a reset came
since; nothing of the start is in it. -/
theorem inFlight_stateAfter_eq_some_iff {i n : Nat} (hi : i ≤ c.latency) (hn : i ≤ n)
    (r : Response) :
    inFlight c (stateAfter c n s) i = some r ↔
      acceptedResponse c (plannedPorts s (n - i)) = some r ∧
        ∀ j < i, (plannedPorts s (n - i + j)).rst = false := by
  obtain ⟨m, rfl⟩ := Nat.exists_eq_add_of_le hn
  have hflight := inFlight_stateAfter c (stateAfter c m s) (i := 0) (k := i) (by omega) r
  rw [Nat.zero_add, ← stateAfter_add, inFlight_zero, currentPorts_stateAfter] at hflight
  simpa only [Nat.add_sub_cancel_left, plannedPorts_stateAfter] using hflight

theorem stateAfter_inputs_congr (hinputs : s.inputs = s'.inputs) (n : Nat) :
    (stateAfter c n s).inputs = (stateAfter c n s').inputs := by
  rw [stateAfter_inputs, stateAfter_inputs, hinputs]

/-- From cycle L on the pipeline is a function of the plan. -/
theorem stateAfter_pipe_congr (hinputs : s.inputs = s'.inputs)
    (hlen : s.pipe.length = c.latency) (hlen' : s'.pipe.length = c.latency) {n : Nat}
    (hn : c.latency ≤ n) : (stateAfter c n s).pipe = (stateAfter c n s').pipe := by
  have hlenAfter := length_stateAfter_pipe hlen n
  have hplan : plannedPorts s = plannedPorts s' := by
    funext k
    rw [plannedPorts, plannedPorts, hinputs]
  refine pipe_eq_of_pipeEntry_eq (hlenAfter.trans (length_stateAfter_pipe hlen' n).symm)
    fun i hi => ?_
  have hplace : i + 1 ≤ c.latency := hlenAfter ▸ hi
  have hpos : 1 ≤ i + 1 := Nat.le_add_left 1 i
  rw [← inFlight_of_pos c _ hpos, ← inFlight_of_pos c _ hpos]
  ext r
  rw [inFlight_stateAfter_eq_some_iff hplace (hplace.trans hn),
    inFlight_stateAfter_eq_some_iff hplace (hplace.trans hn), hplan]

/-- From the next cycle on the outputs are too. -/
theorem stateAfter_congr (hinputs : s.inputs = s'.inputs)
    (hlen : s.pipe.length = c.latency) (hlen' : s'.pipe.length = c.latency) {n : Nat}
    (hn : c.latency < n) : stateAfter c n s = stateAfter c n s' := by
  obtain ⟨m, rfl⟩ : ∃ m, n = m + 1 := ⟨n - 1, by omega⟩
  rw [stateAfter_succ, stateAfter_succ]
  exact nextState_congr (stateAfter_pipe_congr hinputs hlen hlen' (Nat.le_of_lt_succ hn))
    (stateAfter_inputs_congr hinputs m)

end Forgetting

/-- Settles O47. -/
theorem startContentsDieOut : Obligations.StartContentsDieOut :=
  fun c s s' n hinputs hlen hlen' hn =>
    ⟨_, _, run_eq_stateAfter c s n, run_eq_stateAfter c s' n,
      stateAfter_pipe_congr hinputs hlen hlen' hn, stateAfter_inputs_congr hinputs n,
      stateAfter_congr hinputs hlen hlen'⟩

end Sys2Proof.Machine
end

section
/-!
Several deinterleavers (`60_exceptions.md` section 3): a cycle of the one at place n is its own next
state at that place and nothing elsewhere, so cycles at two places commute.
-/

namespace Sys2Proof.Machine

/-- What a cycle does to the member at place n, which has entry n of `cfgs` as its configuration;
nothing where there is no entry. -/
def memberCycle (cfgs : List Config) (n : Nat) (s : State) : State :=
  (cfgs[n]?).elim s fun c => nextState c s

/-- The system after a cycle of the member at place n. -/
def System.afterCycle (cfgs : List Config) (y : System) (n : Nat) : System :=
  { members := y.members.modify n (memberCycle cfgs n) }

section Members

variable {cfgs : List Config} {y : System} {n : Nat}

theorem memberCycle_of_some {c : Config} (hc : cfgs[n]? = some c) (s : State) :
    memberCycle cfgs n s = nextState c s := by
  rw [memberCycle, hc, Option.elim_some]

theorem memberCycle_of_none (hc : cfgs[n]? = none) : memberCycle cfgs n = id := by
  funext s
  rw [memberCycle, hc, Option.elim_none, id]

theorem System.getElem?_afterCycle_self :
    (y.afterCycle cfgs n).members[n]? = (y.members[n]?).map (memberCycle cfgs n) :=
  List.getElem?_modify_eq _ n y.members

theorem System.getElem?_afterCycle_of_ne {m : Nat} (h : n ≠ m) :
    (y.afterCycle cfgs n).members[m]? = y.members[m]? :=
  List.getElem?_modify_ne _ y.members h

theorem System.length_afterCycle :
    (y.afterCycle cfgs n).members.length = y.members.length :=
  List.length_modify ..

theorem System.afterCycle_of_none (h : cfgs[n]? = none ∨ y.members[n]? = none) :
    y.afterCycle cfgs n = y := by
  refine congrArg System.mk ?_
  rcases h with hc | hs
  · rw [memberCycle_of_none hc, List.modify_id]
  · exact List.modify_eq_self (List.getElem?_eq_none_iff.mp hs)

/-- R101: one cycle of one member, whether there is one at the place or not. -/
theorem System.stepAt_eq (cfgs : List Config) (y : System) (n : Nat) :
    y.stepAt cfgs n = .next (y.afterCycle cfgs n) := by
  cases hc : cfgs[n]? with
  | none => rw [System.stepAt_of_none (.inl hc), System.afterCycle_of_none (.inl hc)]
  | some c =>
    cases hs : y.members[n]? with
    | none => rw [System.stepAt_of_none (.inr hs), System.afterCycle_of_none (.inr hs)]
    | some s =>
      have hset : y.members.modify n (memberCycle cfgs n) =
          y.members.set n (nextState c s) := by
        simp [List.modify_eq_set_getElem?, hs, memberCycle_of_some hc]
      rw [System.stepAt_of_member c hc hs (stepIn_eq_nextState c s), System.afterCycle, hset]

/-- Cycles at two places commute, since each reads and writes its own. -/
theorem System.afterCycle_comm (y : System) {m : Nat} (h : n ≠ m) :
    (y.afterCycle cfgs n).afterCycle cfgs m = (y.afterCycle cfgs m).afterCycle cfgs n :=
  congrArg System.mk (List.modify_modify_ne _ _ y.members h)

end Members

/-- Settles O53. -/
theorem instancesAreIndependent : Obligations.InstancesAreIndependent := by
  intro cfgs y n
  refine ⟨_, System.stepAt_eq cfgs y n, System.length_afterCycle, fun c s hc hs => ?_,
    System.afterCycle_of_none, fun m hm => ⟨System.getElem?_afterCycle_of_ne hm, ?_⟩⟩
  · refine ⟨_, stepIn_eq_nextState c s, ?_⟩
    rw [System.getElem?_afterCycle_self, hs, Option.map_some, memberCycle_of_some hc]
  · exact ⟨_, _, System.stepAt_eq cfgs y m, System.stepAt_eq cfgs _ m,
      System.afterCycle_comm y hm ▸ System.stepAt_eq cfgs _ n⟩

end Sys2Proof.Machine
end
